-- ==== Sys2Proof/Word.lean ====
section
/-! DEFINITION. The widths of the machine (00_scope.md R5): XLEN = 16, ALEN = 15, bytes of 8 bits. -/

namespace Sys2Proof

/-- A memory word or the contents of an accumulator: 16 bits (00_scope.md R5 `XLEN`). -/
abbrev Word := BitVec 16

/-- A word address, and the width of PC, SP and FP: 15 bits (00_scope.md R5 `ALEN`). -/
abbrev Addr := BitVec 15

/-- Half a word, as LDB and STB move it (20_memory.md R42). -/
abbrev Byte := BitVec 8

end Sys2Proof
end

