-- ==== Sys2Proof/Config.lean ====
section
/-! DEFINITION. What is fixed for one machine: the parameters of 00_scope.md R5, and the free values, constants with no
body that stand for what the spec leaves open. -/

namespace Sys2Proof

/-- `MUL_MODE` (00_scope.md R5; 41_multiply_divide.md R101; 92_eei_decisions.md D5). -/
inductive MulMode where
  /-- the source's words: the high half of the product is added into AC0 -/
  | highAddedToAc0
  /-- general knowledge (G5): AC0 is added to the 32-bit product -/
  | ac0AddedToProduct
deriving DecidableEq, Repr

/-- `DIV_OVERFLOW`: DIV when AC0 >= AC2, unsigned (00_scope.md R5; 41_multiply_divide.md R102; D7). -/
inductive DivOverflow where
  /-- the spec's default: the model stops with `Fault.divideUnspecified` -/
  | fault
  /-- general knowledge (G6): accumulators unchanged, carry set -/
  | unchangedCarry1
  /-- DESIGN CHOICE (assumption 9), the model's own third value, which no default has: the instruction completes and AC0,
  AC1 and C are free values. Safe: it allows the outcome of `unchangedCarry1` and every other. -/
  | draw
deriving DecidableEq, Repr

/-- `DIV_CARRY`: the carry after a DIV whose quotient fits (00_scope.md R5; 41_multiply_divide.md R102; D8). -/
inductive DivCarry where
  /-- the spec's default: the carry takes any value -/
  | draw
  /-- general knowledge (G6): the carry is cleared -/
  | overflowFlag
deriving DecidableEq, Repr

/-- The parameters of 00_scope.md R5, under the spec's names. They are arguments of the model: `State` carries them and
no step writes them (assumption 7), so a statement about every state is a statement about every machine. -/
structure Params where
  /-- `HAS_MULDIV`: MUL and DIV exist -/
  hasMulDiv : Bool
  /-- `HAS_STACK`: the eight stack instructions and stack protection exist -/
  hasStack : Bool
  /-- `HAS_BYTE`: LDB and STB exist -/
  hasByte : Bool
  /-- `HAS_TRAP`: the TRAP words trap (otherwise they are no-ops) -/
  hasTrap : Bool
  /-- `MAPPED`: the machine has a user map -/
  mapped : Bool
  /-- `MEM_WORDS`: how many words of memory exist, from address 0 -/
  memWords : Nat
  /-- `PAGE_WORDS`: the size of a page, in words -/
  pageWords : Nat
  /-- `BYTE_SELECT_LEFT`: the value of a byte pointer's lowest bit that selects the left byte -/
  byteSelectLeft : BitVec 1
  /-- `MUL_MODE` -/
  mulMode : MulMode
  /-- `DIV_OVERFLOW` -/
  divOverflow : DivOverflow
  /-- `DIV_CARRY` -/
  divCarry : DivCarry
  /-- `STKFAULT_LATCH`: a page crossing with ION = 0 is remembered -/
  stkFaultLatch : Bool
  /-- `RET_SP_FROM_FP`: RET first copies FP to SP -/
  retSpFromFp : Bool
deriving DecidableEq, Repr

/-- The `n`th free bit: the carry after DIV (41_multiply_divide.md R102, `draw(1)`; assumptions 9 to 11). -/
opaque Config.freeBit : Nat → Bool

/-- The `n`th free word: AC0 and AC1 after a DIV with no 16-bit quotient, under `DivOverflow.draw` (assumptions 9, 11). -/
opaque Config.freeWord : Nat → Word

/-- The `n`th free address: what a remembered stack fault records (60_exceptions.md R165; assumptions 11, 20). -/
opaque Config.freeAddr : Nat → Addr

end Sys2Proof
end

