-- ==== Sys2Proof/Syntax.lean ====
section
/-! DEFINITION. The instructions: one constructor per row of spec/opcode_table.json (30_encoding.md R69, R74). -/

namespace Sys2Proof

/-- The four accumulators (10_state.md R20), as an accumulator specifier names them (30_encoding.md R67 (a)). -/
inductive Acc where
  | ac0 | ac1 | ac2 | ac3
deriving DecidableEq, Repr

/-- The thirteen instructions (00_scope.md R3), with the operands of their assembler forms (30_encoding.md R74). -/
inductive Instr where
  /-- multiply -/
  | mul
  /-- divide -/
  | div
  /-- `MTSP ac`: move accumulator to stack pointer -/
  | mtsp (ac : Acc)
  /-- `MFSP ac`: move stack pointer to accumulator -/
  | mfsp (ac : Acc)
  /-- `MTFP ac`: move accumulator to frame pointer -/
  | mtfp (ac : Acc)
  /-- `MFFP ac`: move frame pointer to accumulator -/
  | mffp (ac : Acc)
  /-- `PSHA ac`: push an accumulator -/
  | psha (ac : Acc)
  /-- `POPA ac`: pop into an accumulator -/
  | popa (ac : Acc)
  /-- `SAV`: push a return block -/
  | sav
  /-- `RET`: pop a return block -/
  | ret
  /-- `LDB acs, acd`: `acs` holds the byte pointer, `acd` receives the byte -/
  | ldb (acs acd : Acc)
  /-- `STB acs, acd`: the right half of `acs` is stored, `acd` holds the byte pointer -/
  | stb (acs acd : Acc)
  /-- `TRAP acs, acd, number`: the three fields are not read by hardware -/
  | trap (acs acd : Acc) (number : Nat)
deriving DecidableEq, Repr

end Sys2Proof
end

