-- ==== Sys2Proof/WellFormed.lean ====
section
/-! DEFINITION. Which instructions have an encoding, and which parameters a machine can have. -/

namespace Sys2Proof

/-- The trap number is a 7-bit field, 0..127 (30_encoding.md R66, R67 (b)); the accumulator specifiers are right by
their type. -/
def Instr.wf : Instr → Bool
  | .mul => true
  | .div => true
  | .mtsp _ => true
  | .mfsp _ => true
  | .mtfp _ => true
  | .mffp _ => true
  | .psha _ => true
  | .popa _ => true
  | .sav => true
  | .ret => true
  | .ldb _ _ => true
  | .stb _ _ => true
  | .trap _ _ number => decide (number < 128)

/-- What the spec says of the sizes: at most 2^15 words of memory (20_memory.md R40), and a page that contains location
0o47 (20_memory.md R47, "The source itself forces only `PAGE_WORDS >= 40`"). -/
def Params.wf (p : Params) : Bool :=
  decide (p.memWords ≤ 32768) && decide (40 ≤ p.pageWords)

end Sys2Proof
end

