-- ==== Sys2Proof/Decode.lean ====
section
/-! DEFINITION. Decoding a word (30_encoding.md R68), total on all 65536 of them, and encoding an instruction (R61 to
R66). Bit numbers are DG numbers: bit 0 is the most significant (00_scope.md R6). -/

namespace Sys2Proof

/-- `w.dg[first:last]` as a number (00_scope.md R8). -/
def dg (w : Word) (first last : Nat) : Nat :=
  w.toNat / 2 ^ (15 - last) % 2 ^ (last + 1 - first)

/-- The accumulator a 2-bit specifier names (30_encoding.md R67 (a)). -/
def Acc.ofField : Nat → Acc
  | 0 => .ac0
  | 1 => .ac1
  | 2 => .ac2
  | _ => .ac3

/-- The accumulator's number, the value of its specifier (30_encoding.md R67 (a)). -/
def Acc.number : Acc → Nat
  | .ac0 => 0
  | .ac1 => 1
  | .ac2 => 2
  | .ac3 => 3

/-- What a word is: one of the thirteen instructions, or a word the spec gives no meaning, rejected by name. -/
inductive Decoded where
  | instr (i : Instr)
  /-- 30_encoding.md R71: an I/O word to device 1 that is none of the twelve -/
  | undefinedDevice1Code
  /-- 30_encoding.md R72: a word of the base instruction set or for another device -/
  | notInScope
deriving DecidableEq, Repr

/-- The `case (t, c)` of 30_encoding.md R68: the AC, Transfer and Control fields of an I/O word to device 1. PRESUMED
(assumption 13): but for LDB and STB the codes are general knowledge (R62, R63). -/
def decodeDevice1 (ac transfer control : Nat) : Decoded :=
  match transfer, control with
  | 0, 0 => .instr (.mtfp (Acc.ofField ac))
  | 0, 2 => .instr (.mffp (Acc.ofField ac))
  | 1, c => .instr (.ldb (Acc.ofField c) (Acc.ofField ac))
  | 2, 0 => .instr (.mtsp (Acc.ofField ac))
  | 2, 2 => .instr (.mfsp (Acc.ofField ac))
  | 3, 0 => .instr (.psha (Acc.ofField ac))
  | 3, 2 => .instr (.popa (Acc.ofField ac))
  | 4, c => .instr (.stb (Acc.ofField c) (Acc.ofField ac))
  | 5, 0 => .instr .sav
  | 5, 2 => .instr .ret
  | 6, 1 => if ac = 2 then .instr .div else .undefinedDevice1Code
  | 6, 3 => if ac = 2 then .instr .mul else .undefinedDevice1Code
  | _, _ => .undefinedDevice1Code

/-- The decoder of 30_encoding.md R68. The test of `HAS_TRAP` stands in TRAP's meaning, so that decoding depends on the
word alone. -/
def decode (w : Word) : Decoded :=
  if dg w 0 0 = 1 then
    if dg w 12 15 = 8 then
      .instr (.trap (Acc.ofField (dg w 1 2)) (Acc.ofField (dg w 3 4)) (dg w 5 11))
    else .notInScope
  else if dg w 0 2 = 3 then
    if dg w 10 15 = 1 then decodeDevice1 (dg w 3 4) (dg w 5 7) (dg w 8 9) else .notInScope
  else .notInScope

/-- The transfer mnemonics and their codes (30_encoding.md R62). -/
inductive Transfer where
  | nio | dia | doa | dib | dob | dic | doc | skp
deriving DecidableEq, Repr

/-- Bits 5-7 of the I/O form. PRESUMED (assumption 13), but for `dia` and `dob`, which the source's figure gives. -/
def Transfer.code : Transfer → Nat
  | .nio => 0
  | .dia => 1
  | .doa => 2
  | .dib => 3
  | .dob => 4
  | .dic => 5
  | .doc => 6
  | .skp => 7

/-- The control suffixes and their codes (30_encoding.md R63). -/
inductive Control where
  | none | s | c | p
deriving DecidableEq, Repr

/-- Bits 8-9 of the I/O form. PRESUMED (assumption 13). -/
def Control.code : Control → Nat
  | .none => 0
  | .s => 1
  | .c => 2
  | .p => 3

/-- "As a number, an IO-form word is `0x6000 + AC*0x800 + Transfer*0x100 + Control*0x40 + Device`" (30_encoding.md R61),
with device 1 (R64). -/
def ioWord (ac transfer control : Nat) : Nat :=
  0x6000 + ac * 0x800 + transfer * 0x100 + control * 0x40 + 1

/-- The instruction word as a number: the assembler equivalences of 30_encoding.md R69 (R75), the byte form of R65 and the
trap form of R66. SAV and RET have `00` in bits 3-4 (R70 (b)). -/
def encodeNat : Instr → Nat
  | .mul => ioWord 2 Transfer.doc.code Control.p.code
  | .div => ioWord 2 Transfer.doc.code Control.s.code
  | .mtsp ac => ioWord ac.number Transfer.doa.code Control.none.code
  | .mfsp ac => ioWord ac.number Transfer.doa.code Control.c.code
  | .mtfp ac => ioWord ac.number Transfer.nio.code Control.none.code
  | .mffp ac => ioWord ac.number Transfer.nio.code Control.c.code
  | .psha ac => ioWord ac.number Transfer.dib.code Control.none.code
  | .popa ac => ioWord ac.number Transfer.dib.code Control.c.code
  | .sav => ioWord 0 Transfer.dic.code Control.none.code
  | .ret => ioWord 0 Transfer.dic.code Control.c.code
  | .ldb acs acd => ioWord acd.number Transfer.dia.code acs.number
  | .stb acs acd => ioWord acd.number Transfer.dob.code acs.number
  | .trap acs acd number => 0x8008 + acs.number * 0x2000 + acd.number * 0x800 + number * 0x10

/-- The one word of a well-formed instruction (30_encoding.md R60). -/
def encode (i : Instr) : Word := BitVec.ofNat 16 (encodeNat i)

/-- The row's `match` in the table of 30_encoding.md R69. -/
def rowMatch : Instr → Word
  | .mul => 0x76C1
  | .div => 0x7641
  | .mtsp _ => 0x6201
  | .mfsp _ => 0x6281
  | .mtfp _ => 0x6001
  | .mffp _ => 0x6081
  | .psha _ => 0x6301
  | .popa _ => 0x6381
  | .sav => 0x6501
  | .ret => 0x6581
  | .ldb _ _ => 0x6101
  | .stb _ _ => 0x6401
  | .trap _ _ _ => 0x8008

/-- The row's `mask` in the table of 30_encoding.md R69. -/
def rowMask : Instr → Word
  | .mul => 0xFFFF
  | .div => 0xFFFF
  | .mtsp _ => 0xE7FF
  | .mfsp _ => 0xE7FF
  | .mtfp _ => 0xE7FF
  | .mffp _ => 0xE7FF
  | .psha _ => 0xE7FF
  | .popa _ => 0xE7FF
  | .sav => 0xE7FF
  | .ret => 0xE7FF
  | .ldb _ _ => 0xE73F
  | .stb _ _ => 0xE73F
  | .trap _ _ _ => 0x800F

/-- The instruction the decoder reads from a table row's word: every row is one 16-bit word (30_encoding.md R60), and bits
above `nbits` are 0. -/
def decodeTableWord (nbits w : Nat) : Option Instr :=
  match decode (BitVec.ofNat 16 (w % 2 ^ nbits)) with
  | .instr i => some i
  | .undefinedDevice1Code => none
  | .notInScope => none

end Sys2Proof
end

