-- ==== Sys2Proof/Machine/Params.lean ====
section
/-! DEFINITION. The default parameters, those of the machine that `State.reset` describes. -/

namespace Sys2Proof.Machine

/-- The defaults of 00_scope.md R5, with all four feature groups present ("Nova 4 = all true"). With them the only draw is
the carry after DIV (R13). `PAGE_WORDS` and `BYTE_SELECT_LEFT` are PRESUMED there (assumption 8). -/
def defaultParams : Params where
  hasMulDiv := true
  hasStack := true
  hasByte := true
  hasTrap := true
  mapped := false
  memWords := 32768
  pageWords := 256
  byteSelectLeft := 0
  mulMode := .highAddedToAc0
  divOverflow := .fault
  divCarry := .draw
  stkFaultLatch := false
  retSpFromFp := false

end Sys2Proof.Machine
end

