-- ==== Sys2Proof/Machine/State.lean ====
section
/-! DEFINITION. The state of the machine (10_state.md), the reasons a step can stop (00_scope.md R12, R13), and the state
after reset. -/

namespace Sys2Proof.Machine

/-- The accumulators AC0 to AC3 (10_state.md R20). -/
structure Accs where
  ac0 : Word
  ac1 : Word
  ac2 : Word
  ac3 : Word
deriving DecidableEq, Repr

/-- Main memory (10_state.md R27). Word `a` is kept as two bytes: `2a` is its left byte (DG bits 0-7) and `2a + 1` its
right byte (DG bits 8-15), as the byte pointers of 20_memory.md R43 number them (assumption 6). A byte that is not listed
reads as 0 (`Memory.unlisted`, assumption 5). -/
structure Memory where
  cells : List Host.Cell
deriving DecidableEq, Repr

/-- What a byte that nothing has written reads as. DESIGN CHOICE (assumption 5): the spec gives memory no contents at
reset (10_state.md R29). -/
def Memory.unlisted : Byte := 0

/-- The canonical form: addresses strictly rising, no byte listed that an unlisted address would read as, and no byte
beyond the 2^15 words of the address space (20_memory.md R40). -/
abbrev Memory.wf (m : Memory) : Prop :=
  m.cells.Pairwise (fun x y => x.1 < y.1) ∧ ∀ x ∈ m.cells, x.2 ≠ Memory.unlisted ∧ x.1 < 65536

/-- Everything the spec gives the machine (10_state.md section 1), the machine's parameters, and the count of free
values taken. -/
structure State where
  /-- AC0 to AC3 (R20) -/
  acs : Accs
  /-- the carry bit C (R21) -/
  c : Bool
  /-- the program counter (R22) -/
  pc : Addr
  /-- the stack pointer (R23) -/
  sp : Addr
  /-- SP has a value: the launch state gave one, or software has written it (R30) -/
  spWritten : Bool
  /-- the frame pointer (R24) -/
  fp : Addr
  /-- FP has a value: the launch state gave one, or software has written it (R30) -/
  fpWritten : Bool
  /-- the interrupt enable ION (R25) -/
  ion : Bool
  /-- the user map enable USERMAP (R26), meant only on a mapped machine -/
  usermap : Bool
  /-- a page crossing with ION = 0 is remembered, STKPEND (R28), meant only with `stkFaultLatch` -/
  stkpend : Bool
  /-- main memory (R27) -/
  mem : Memory
  /-- the parameters of 00_scope.md R5; no step writes them (assumption 7) -/
  params : Params
  /-- how many free values have been taken; the model's own (assumption 11) -/
  draws : Nat
deriving DecidableEq, Repr

/-- An instruction under way: the state so far, and the Boolean `crossed` of 42_stack.md R111, "local to the current
instruction, false at the start of every step". -/
structure Work where
  st : State
  crossed : Bool
deriving DecidableEq, Repr

/-- The model's faults (00_scope.md R12): "the source leaves the behaviour open ... and the spec assigns no value". -/
inductive Fault where
  /-- Raised by MFSP, PSHA, POPA, SAV and RET when SP is marked unwritten (10_state.md R30); not by RET with
  `retSpFromFp`, whose copy of FP to SP counts as a write of SP (assumption 37). Safe. -/
  | unwrittenSP
  /-- Raised by MFFP and SAV, and by RET with `retSpFromFp`, when FP is marked unwritten (10_state.md R30). Safe. -/
  | unwrittenFP
  /-- Raised by DIV when AC0 >= AC2 and `DIV_OVERFLOW = fault` (41_multiply_divide.md R102). Safe. -/
  | divideUnspecified
deriving DecidableEq, Repr

/-- The model's refusals (00_scope.md R12, R13): instructions and forms the spec gives no meaning. -/
inductive Refusal where
  /-- Raised by `exec` for an instruction with no meaning yet. No arm raises it any more. Safe. -/
  | notModelled (mnemonic : String)
  /-- Raised by `step` for a word of the base instruction set or for another device (30_encoding.md R72). Safe. -/
  | notInScope
  /-- Raised by `step` for one of the 62 undefined I/O words to device 1 (30_encoding.md R71). Safe. -/
  | undefinedDevice1Code
  /-- Raised by MUL, DIV, the stack instructions, LDB and STB on a machine without their feature group
  (30_encoding.md R68). Safe. -/
  | featureAbsent
  /-- Raised by an indirect jump (stack fault entry, TRAP) when the vector word has DG bit 0 = 1
  (60_exceptions.md R162). Safe. -/
  | indirectChain
  /-- Raised by every instruction but TRAP while the user map is enabled (10_state.md R26). Safe. -/
  | userMapEnabled
  /-- Raised by a fetch or a memory access at an address at or above `MEM_WORDS` (20_memory.md R40). Safe. -/
  | noSuchMemory
deriving DecidableEq, Repr

/-- The state after reset. The spec gives only `STKPEND` a reset value (10_state.md R29) and starts a run from a launch
state that supplies the rest (70_reset_and_hazards.md R190): this is the launch state with every register 0 (DESIGN
CHOICE, assumptions 1 to 3; ION = 0 is PRESUMED, assumption 4), SP and FP given a value, memory with nothing listed, and the
default parameters of 00_scope.md R5 (assumption 8). -/
def State.reset : State where
  acs := { ac0 := 0, ac1 := 0, ac2 := 0, ac3 := 0 }
  c := false
  pc := 0
  sp := 0
  spWritten := true
  fp := 0
  fpWritten := true
  ion := false
  usermap := false
  stkpend := false
  mem := { cells := [] }
  params := defaultParams
  draws := 0

end Sys2Proof.Machine
end

