-- ==== Sys2Proof/Machine/Operands.lean ====
section
/-! DEFINITION. Registers and operand forms: accumulators by specifier, the named updates of each register, the moves
between 15 and 16 bits, byte pointers and the halves of a word. -/

namespace Sys2Proof.Machine

/-- `AC[i]` (00_scope.md R8). -/
def Accs.get (r : Accs) : Acc → Word
  | .ac0 => r.ac0
  | .ac1 => r.ac1
  | .ac2 => r.ac2
  | .ac3 => r.ac3

/-- `AC[i] <- v` (00_scope.md R8). -/
def Accs.set (r : Accs) (i : Acc) (v : Word) : Accs :=
  match i with
  | .ac0 => { r with ac0 := v }
  | .ac1 => { r with ac1 := v }
  | .ac2 => { r with ac2 := v }
  | .ac3 => { r with ac3 := v }

/-- `AC[i]` of a state. -/
def State.ac (s : State) (i : Acc) : Word := s.acs.get i

/-- `AC[i] <- v`. -/
def State.setAc (s : State) (i : Acc) (v : Word) : State := { s with acs := s.acs.set i v }

/-- `C <- v`. -/
def State.setC (s : State) (v : Bool) : State := { s with c := v }

/-- `PC <- v`. -/
def State.setPc (s : State) (v : Addr) : State := { s with pc := v }

/-- `SP <- v`; after it SP is written (10_state.md R30; for RET's copy from FP see assumption 37). -/
def State.setSp (s : State) (v : Addr) : State := { s with sp := v, spWritten := true }

/-- `FP <- v`; after it FP is written (10_state.md R30; for RET see assumption 36). -/
def State.setFp (s : State) (v : Addr) : State := { s with fp := v, fpWritten := true }

/-- `ION <- v`. -/
def State.setIon (s : State) (v : Bool) : State := { s with ion := v }

/-- `USERMAP <- v`. -/
def State.setUsermap (s : State) (v : Bool) : State := { s with usermap := v }

/-- `STKPEND <- v`. -/
def State.setStkpend (s : State) (v : Bool) : State := { s with stkpend := v }

/-- Memory replaced by `m`. -/
def State.setMem (s : State) (m : Memory) : State := { s with mem := m }

/-- The count of free values replaced by `n`. -/
def State.setDraws (s : State) (n : Nat) : State := { s with draws := n }

/-- `PC <- (PC + 1) mod 2^15`, step (3) of the instruction cycle (00_scope.md R9; 20_memory.md R55). -/
def State.advance (s : State) : State := s.setPc (s.pc + 1)

/-- `v mod 2^15`: DG bits 1-15 of a word, DG bit 0 discarded (42_stack.md R113; D9). -/
def low15 (v : Word) : Addr := v.setWidth 15

/-- `zext_16`: a 15-bit value in DG bits 1-15, DG bit 0 = 0 (42_stack.md R114; D10). -/
def zext16 (a : Addr) : Word := a.setWidth 16

/-- DG bit 0 of a word. -/
def topBit (v : Word) : Bool := v.msb

/-- The word address of a byte pointer, `bp div 2` (20_memory.md R42). -/
def bytePtrWord (bp : Word) : Addr := BitVec.ofNat 15 (bp.toNat / 2)

/-- The byte select of a byte pointer, `bp mod 2` (20_memory.md R42). -/
def bytePtrSelect (bp : Word) : BitVec 1 := BitVec.ofNat 1 (bp.toNat % 2)

/-- DG bits 0-7, `w div 256` (20_memory.md R43). -/
def leftByte (w : Word) : Byte := BitVec.ofNat 8 (w.toNat / 256)

/-- DG bits 8-15, `w mod 256` (20_memory.md R43). -/
def rightByte (w : Word) : Byte := BitVec.ofNat 8 (w.toNat % 256)

/-- The word with these halves, `l * 256 + r`. -/
def joinBytes (l r : Byte) : Word := BitVec.ofNat 16 (l.toNat * 256 + r.toNat)

/-- The byte of `w` that `sel` names (43_byte.md R141). -/
def selectByte (p : Params) (sel : BitVec 1) (w : Word) : Byte :=
  if sel = p.byteSelectLeft then leftByte w else rightByte w

/-- `w` with the byte that `sel` names replaced by `b`, the other half kept (43_byte.md R142). -/
def replaceByte (p : Params) (sel : BitVec 1) (b : Byte) (w : Word) : Word :=
  if sel = p.byteSelectLeft then joinBytes b (rightByte w) else joinBytes (leftByte w) b

end Sys2Proof.Machine
end

