-- ==== Sys2Proof/Machine/Flags.lean ====
section
/-! DEFINITION. The carry bit, the machine's one flag (10_state.md R21): how SAV packs it, how RET unpacks it, and what DIV
leaves in it; and the free values, among them the carry after DIV. -/

namespace Sys2Proof.Machine

/-- `C * 2^15 + AC3 mod 2^15`: the carry in DG bit 0, an address in DG bits 1-15 (42_stack.md R119). -/
def packCarry (c : Bool) (a : Addr) : Word := BitVec.ofNat 16 (c.toNat * 32768 + a.toNat)

/-- `C <- w.dg[0]` (42_stack.md R120). -/
def carryOfWord (w : Word) : Bool := topBit w

/-- `draw(1)` (00_scope.md R8): the next free bit. -/
def drawBit (s : State) : Bool × State := (Config.freeBit s.draws, s.setDraws (s.draws + 1))

/-- `draw(16)` (00_scope.md R8): the next free word. -/
def drawWord (s : State) : Word × State := (Config.freeWord s.draws, s.setDraws (s.draws + 1))

/-- `draw(15)` (00_scope.md R8): the next free address. -/
def drawAddr (s : State) : Addr × State := (Config.freeAddr s.draws, s.setDraws (s.draws + 1))

/-- The carry after a DIV whose quotient fits, by `DIV_CARRY` (41_multiply_divide.md R102; D8). -/
def setDivCarry (s : State) : State :=
  match s.params.divCarry with
  | .draw => (drawBit s).2.setC (drawBit s).1
  | .overflowFlag => s.setC false

end Sys2Proof.Machine
end

