-- ==== Sys2Proof/Machine/Ops.lean ====
section
/-! DEFINITION. The operations the instructions share: sequencing, the feature and mode tests, memory, the stack, taking a
stack fault, taking an instruction trap. There is no return from either: "The source describes no return-from-trap or
return-from-interrupt instruction" (60_exceptions.md R170). -/

namespace Sys2Proof.Machine

/-- Go on with what `o` answers; a fault or a refusal stops the instruction (00_scope.md R12). -/
def andThen {α β : Type} (o : Host.Outcome α Fault Refusal) (f : α → Host.Outcome β Fault Refusal) :
    Host.Outcome β Fault Refusal :=
  match o with
  | .next a => f a
  | .fault r => .fault r
  | .refused r => .refused r

/-- The user map is enabled: `MAPPED` and `USERMAP = 1` (10_state.md R26). -/
def State.mapOn (s : State) : Bool := s.params.mapped && s.usermap

/-- The feature test and then the mode test of 30_encoding.md R68, before every instruction but TRAP. -/
def gate (feature : Bool) (s : State) (body : State → Host.Outcome State Fault Refusal) :
    Host.Outcome State Fault Refusal :=
  if feature then if s.mapOn then .refused .userMapEnabled else body s else .refused .featureAbsent

/-! ### Memory (20_memory.md) -/

/-- The byte listed at `a`, or what an unlisted address reads as. -/
def lookupCell : List Host.Cell → Nat → Byte
  | [], _ => Memory.unlisted
  | (k, v) :: rest, a => if k = a then v else lookupCell rest a

/-- The cells with byte `v` at `a`, in canonical form if they were. -/
def storeCell : List Host.Cell → Nat → Byte → List Host.Cell
  | [], a, v => if v = Memory.unlisted then [] else [(a, v)]
  | (k, w) :: rest, a, v =>
    if a < k then if v = Memory.unlisted then (k, w) :: rest else (a, v) :: (k, w) :: rest
    else if a = k then if v = Memory.unlisted then rest else (a, v) :: rest
    else (k, w) :: storeCell rest a v

/-- One byte of memory (assumption 6). -/
def Memory.readByte (m : Memory) (a : Nat) : Byte := lookupCell m.cells a

/-- One byte of memory replaced. -/
def Memory.writeByte (m : Memory) (a : Nat) (v : Byte) : Memory := { cells := storeCell m.cells a v }

/-- `Mem[a]`: the left byte at `2a`, the right byte at `2a + 1` (assumption 6). -/
def Memory.readWord (m : Memory) (a : Addr) : Word :=
  joinBytes (m.readByte (2 * a.toNat)) (m.readByte (2 * a.toNat + 1))

/-- `Mem[a] <- v`. -/
def Memory.writeWord (m : Memory) (a : Addr) (v : Word) : Memory :=
  (m.writeByte (2 * a.toNat) (leftByte v)).writeByte (2 * a.toNat + 1) (rightByte v)

/-- The word at `a` exists: `a < MEM_WORDS` (20_memory.md R40). -/
def State.hasWord (s : State) (a : Addr) : Bool := decide (a.toNat < s.params.memWords)

/-- `MemRead(a, 1)` (20_memory.md R41), refused where it is not defined (R40, R49). -/
def memRead (a : Addr) (s : State) : Host.Outcome Word Fault Refusal :=
  if s.mapOn then .refused .userMapEnabled
  else if s.hasWord a then .next (s.mem.readWord a) else .refused .noSuchMemory

/-- `MemWrite(a, 1, v)` (20_memory.md R41), refused where it is not defined (R40, R49). -/
def memWrite (a : Addr) (v : Word) (s : State) : Host.Outcome State Fault Refusal :=
  if s.mapOn then .refused .userMapEnabled
  else if s.hasWord a then .next (s.setMem (s.mem.writeWord a v)) else .refused .noSuchMemory

/-- `w = MemRead(a', 1)` of the instruction cycle (00_scope.md R9). With the user map enabled "the fetch of the TRAP word
itself is assumed already done" (20_memory.md R49; assumption 17): the word is taken from the untranslated address, and
the mode test of 30_encoding.md R68 follows decoding. -/
def fetch (s : State) : Host.Outcome Word Fault Refusal :=
  if s.hasWord s.pc then .next (s.mem.readWord s.pc) else .refused .noSuchMemory

/-! ### The dedicated locations (20_memory.md R46) -/

/-- "on a stack fault the address of the offending instruction is placed" here -/
def stackFaultSave : Addr := 0

/-- "Stack Protection Handler Address" -/
def stackFaultVector : Addr := 3

/-- 0o46, "Instruction Trap (offending instruction address)" -/
def trapSave : Addr := 38

/-- 0o47, "Instruction Trap Handler Address" -/
def trapVector : Addr := 39

/-! ### Events (60_exceptions.md) -/

/-- `JumpIndirect(loc)` (60_exceptions.md R162): the word at `loc` is the handler's address. -/
def jumpIndirect (loc : Addr) (s : State) : Host.Outcome State Fault Refusal :=
  andThen (memRead loc s) fun v =>
    if topBit v then .refused .indirectChain else .next (s.setPc (low15 v))

/-- Taking an exception, the shape both events have: save the address `a` at `save`, then jump through `vector`. -/
def takeEvent (save vector a : Addr) (s : State) : Host.Outcome State Fault Refusal :=
  andThen (memWrite save (zext16 a) s) fun s => jumpIndirect vector s

/-- `raise StackFault(a)` (60_exceptions.md R164): the saved address goes to location 0, ION is cleared, control goes
through location 3. -/
def raiseStackFault (a : Addr) (s : State) : Host.Outcome State Fault Refusal :=
  takeEvent stackFaultSave stackFaultVector a (s.setIon false)

/-- "if MAPPED and USERMAP = 1 then USERMAP <- 0" (60_exceptions.md R166). -/
def disableUserMap (s : State) : State := if s.mapOn then s.setUsermap false else s

/-- `raise InstructionTrap(a)` (60_exceptions.md R166): the user map is disabled first, the saved address goes to location
0o46, control goes through location 0o47; ION is not changed. -/
def raiseInstructionTrap (a : Addr) (s : State) : Host.Outcome State Fault Refusal :=
  takeEvent trapSave trapVector a (disableUserMap s)

/-! ### The stack (42_stack.md) -/

/-- The first word of a page: `a mod PAGE_WORDS = 0` (42_stack.md R122). -/
def pageStart (p : Params) (a : Addr) : Bool := a.toNat % p.pageWords == 0

/-- The start of an instruction that uses the stack: nothing crossed yet. -/
def beginWork (s : State) : Work := { st := s, crossed := false }

/-- `Push(v)` (42_stack.md R111): increment, store, and note a crossing into the page that starts at the new address. -/
def push (v : Word) (w : Work) : Host.Outcome Work Fault Refusal :=
  if w.st.spWritten then
    andThen (memWrite (w.st.sp + 1) v w.st) fun s =>
      .next { st := s.setSp (w.st.sp + 1), crossed := w.crossed || pageStart w.st.params (w.st.sp + 1) }
  else .fault .unwrittenSP

/-- `Pop()` (42_stack.md R112): load, note a crossing out of the page that starts at the old address, decrement. -/
def pop (w : Work) : Host.Outcome (Word × Work) Fault Refusal :=
  if w.st.spWritten then
    andThen (memRead w.st.sp w.st) fun v =>
      .next (v, { st := w.st.setSp (w.st.sp - 1), crossed := w.crossed || pageStart w.st.params w.st.sp })
  else .fault .unwrittenSP

/-- Push the words of a list, first word first. -/
def pushAll : List Word → Work → Host.Outcome Work Fault Refusal
  | [], w => .next w
  | v :: vs, w => andThen (push v w) fun w => pushAll vs w

/-- `StackCheck(a)` at the end of an instruction (42_stack.md R122; 60_exceptions.md R163, R165): a crossing raises a
stack fault when ION = 1; with ION = 0 it is remembered if the machine has the latch, and otherwise has no effect. -/
def stackCheck (a : Addr) (w : Work) : Host.Outcome State Fault Refusal :=
  if w.crossed then
    if w.st.ion then raiseStackFault a w.st
    else if w.st.params.stkFaultLatch then .next (w.st.setStkpend true) else .next w.st
  else .next w.st

/-- A remembered stack fault is due: "at the first instruction boundary at which `ION = 1`" (60_exceptions.md R165). -/
def State.latchedFaultDue (s : State) : Bool := s.params.stkFaultLatch && s.stkpend && s.ion

/-- Taking the remembered stack fault: "takes `StackFault(a')` with `a'` unspecified (a draw) ..., clearing `STKPEND`"
(60_exceptions.md R165). A memory access while the user map is enabled is refused, this event's too (20_memory.md R49). -/
def takeLatchedFault (s : State) : Host.Outcome State Fault Refusal :=
  raiseStackFault (drawAddr s).1 ((drawAddr s).2.setStkpend false)

end Sys2Proof.Machine
end

