-- ==== Sys2Proof/Machine/ByteOps.lean ====
section
/-! DEFINITION. The byte instructions (43_byte.md). -/

namespace Sys2Proof.Machine

/-- LDB (43_byte.md R141): the byte is zero extended into the destination accumulator. -/
def execLdb (acs acd : Acc) (s : State) : Host.Outcome State Fault Refusal :=
  gate s.params.hasByte s fun s =>
    andThen (memRead (bytePtrWord (s.ac acs)) s) fun w =>
      .next (s.advance.setAc acd ((selectByte s.params (bytePtrSelect (s.ac acs)) w).setWidth 16))

/-- STB (43_byte.md R142): a read and a write of the one word that holds the byte; the other half is kept (D15). -/
def execStb (acs acd : Acc) (s : State) : Host.Outcome State Fault Refusal :=
  gate s.params.hasByte s fun s =>
    andThen (memRead (bytePtrWord (s.ac acd)) s) fun w =>
      memWrite (bytePtrWord (s.ac acd))
        (replaceByte s.params (bytePtrSelect (s.ac acd)) (rightByte (s.ac acs)) w) s.advance

end Sys2Proof.Machine
end

