-- ==== Sys2Proof/Machine/MulDiv.lean ====
section
/-! DEFINITION. Multiply and divide (41_multiply_divide.md). -/

namespace Sys2Proof.Machine

/-- AC0 and AC1 after MUL, from AC0, AC1, AC2 (41_multiply_divide.md R101), by `MUL_MODE`. Unsigned (D4). -/
def mulResult (mode : MulMode) (x0 x1 x2 : Word) : Word × Word :=
  match mode with
  | .highAddedToAc0 =>
    (BitVec.ofNat 16 (x0.toNat + x1.toNat * x2.toNat / 65536), BitVec.ofNat 16 (x1.toNat * x2.toNat))
  | .ac0AddedToProduct =>
    (BitVec.ofNat 16 ((x1.toNat * x2.toNat + x0.toNat) / 65536), BitVec.ofNat 16 (x1.toNat * x2.toNat + x0.toNat))

/-- MUL (41_multiply_divide.md R101). -/
def execMul (s : State) : Host.Outcome State Fault Refusal :=
  gate s.params.hasMulDiv s fun s =>
    let r := mulResult s.params.mulMode (s.ac .ac0) (s.ac .ac1) (s.ac .ac2)
    .next ((s.advance.setAc .ac0 r.1).setAc .ac1 r.2)

/-- A DIV with no 16-bit quotient (AC0 >= AC2), by `DIV_OVERFLOW` (41_multiply_divide.md R102; D7; assumption 9). -/
def divOverflowed (s : State) : Host.Outcome State Fault Refusal :=
  match s.params.divOverflow with
  | .fault => .fault .divideUnspecified
  | .unchangedCarry1 => .next (s.setC true)
  | .draw =>
    let rem := drawWord s
    let quo := drawWord rem.2
    let carry := drawBit quo.2
    .next (((carry.2.setAc .ac0 rem.1).setAc .ac1 quo.1).setC carry.1)

/-- DIV (41_multiply_divide.md R102): the 32-bit dividend AC0:AC1 by AC2, unsigned (D6). -/
def execDiv (s : State) : Host.Outcome State Fault Refusal :=
  gate s.params.hasMulDiv s fun s =>
    let n := (s.ac .ac0).toNat * 65536 + (s.ac .ac1).toNat
    let d := (s.ac .ac2).toNat
    if (s.ac .ac0).toNat < d then
      .next (setDivCarry ((s.advance.setAc .ac1 (BitVec.ofNat 16 (n / d))).setAc .ac0 (BitVec.ofNat 16 (n % d))))
    else divOverflowed s.advance

end Sys2Proof.Machine
end

