-- ==== Sys2Proof/Machine/Stack.lean ====
section
/-! DEFINITION. The stack instructions (42_stack.md). -/

namespace Sys2Proof.Machine

/-- MTSP (42_stack.md R113): a load of SP, never a crossing. -/
def execMtsp (ac : Acc) (s : State) : Host.Outcome State Fault Refusal :=
  gate s.params.hasStack s fun s => .next (s.advance.setSp (low15 (s.ac ac)))

/-- MFSP (42_stack.md R114). -/
def execMfsp (ac : Acc) (s : State) : Host.Outcome State Fault Refusal :=
  gate s.params.hasStack s fun s =>
    if s.spWritten then .next (s.advance.setAc ac (zext16 s.sp)) else .fault .unwrittenSP

/-- MTFP (42_stack.md R115). -/
def execMtfp (ac : Acc) (s : State) : Host.Outcome State Fault Refusal :=
  gate s.params.hasStack s fun s => .next (s.advance.setFp (low15 (s.ac ac)))

/-- MFFP (42_stack.md R116). -/
def execMffp (ac : Acc) (s : State) : Host.Outcome State Fault Refusal :=
  gate s.params.hasStack s fun s =>
    if s.fpWritten then .next (s.advance.setAc ac (zext16 s.fp)) else .fault .unwrittenFP

/-- PSHA (42_stack.md R117). -/
def execPsha (ac : Acc) (s : State) : Host.Outcome State Fault Refusal :=
  gate s.params.hasStack s fun s =>
    andThen (push (s.ac ac) (beginWork s.advance)) fun w => stackCheck s.pc w

/-- POPA (42_stack.md R118). -/
def execPopa (ac : Acc) (s : State) : Host.Outcome State Fault Refusal :=
  gate s.params.hasStack s fun s =>
    andThen (pop (beginWork s.advance)) fun r => stackCheck s.pc { r.2 with st := r.2.st.setAc ac r.1 }

/-- The return block SAV pushes, first word first (42_stack.md R119, R121). -/
def returnBlock (s : State) : List Word :=
  [s.ac .ac0, s.ac .ac1, s.ac .ac2, zext16 s.fp, packCarry s.c (low15 (s.ac .ac3))]

/-- After SAV's five pushes: "the machine loads the *updated* contents of the stack pointer into the Frame pointer and
AC3" (42_stack.md R119). -/
def loadFrame (s : State) : State := (s.setFp s.sp).setAc .ac3 (zext16 s.sp)

/-- SAV (42_stack.md R119). -/
def execSav (s : State) : Host.Outcome State Fault Refusal :=
  gate s.params.hasStack s fun s =>
    if s.spWritten then
      if s.fpWritten then
        andThen (pushAll (returnBlock s) (beginWork s.advance)) fun w =>
          stackCheck s.pc { w with st := loadFrame w.st }
      else .fault .unwrittenFP
    else .fault .unwrittenSP

/-- `RET_SP_FROM_FP = true` prepends "if FP is unwritten then fault UnwrittenFP; SP <- FP" (42_stack.md R120; D35). DESIGN
CHOICE (assumption 37): that copy counts as a write of SP, so that RET with an unwritten SP and a written FP completes;
10_state.md R30 has SP unwritten until the first MTSP. -/
def reloadSp (s : State) : Host.Outcome State Fault Refusal :=
  if s.params.retSpFromFp then
    if s.fpWritten then .next (s.setSp s.fp) else .fault .unwrittenFP
  else .next s

/-- What RET does with the five words popped, in the order popped: C and PC, AC3 (and FP), AC2, AC1, AC0
(42_stack.md R120, R121). DEDUCED (assumption 36): FP counts as written afterwards, as R24 of 10_state.md ("Before the first
write") and vector S21 have it, although R30 there names MTFP and SAV alone. -/
def restoreBlock (w5 w4 w3 w2 w1 : Word) (s : State) : State :=
  ((((((s.setC (carryOfWord w5)).setAc .ac3 w4).setAc .ac2 w3).setAc .ac1 w2).setAc .ac0 w1).setFp (low15 w4)).setPc
    (low15 w5)

/-- RET once SP is settled: pop the return block and restore it; `a` is the address of the RET itself
(42_stack.md R120; 60_exceptions.md R164). -/
def popBlock (a : Addr) (s : State) : Host.Outcome State Fault Refusal :=
  andThen (pop (beginWork s)) fun r5 =>
  andThen (pop r5.2) fun r4 =>
  andThen (pop r4.2) fun r3 =>
  andThen (pop r3.2) fun r2 =>
  andThen (pop r2.2) fun r1 =>
    stackCheck a { r1.2 with st := restoreBlock r5.1 r4.1 r3.1 r2.1 r1.1 r1.2.st }

/-- RET (42_stack.md R120). -/
def execRet (s : State) : Host.Outcome State Fault Refusal :=
  gate s.params.hasStack s fun s => andThen (reloadSp s.advance) fun s1 => popBlock s.pc s1

end Sys2Proof.Machine
end

