-- ==== Sys2Proof/Machine/Trap.lean ====
section
/-! DEFINITION. The trap instruction (44_trap.md). -/

namespace Sys2Proof.Machine

/-- TRAP (44_trap.md R151): instruction trap entry, whatever its three fields hold. Without `HAS_TRAP` the word is a no-op
(R152; 30_encoding.md R73), and as it is then not TRAP it is refused while the user map is enabled (30_encoding.md R68;
assumption 30). -/
def execTrap (_acs _acd : Acc) (_number : Nat) (s : State) : Host.Outcome State Fault Refusal :=
  if s.params.hasTrap then raiseInstructionTrap s.pc s else gate true s fun s => .next s.advance

end Sys2Proof.Machine
end

