-- ==== Sys2Proof/Machine/Dispatch.lean ====
section
/-! DEFINITION. The meaning of each instruction, one arm a constructor. `s.pc` is the address of the instruction, and the
meaning advances it (00_scope.md R9). -/

namespace Sys2Proof.Machine

def exec (i : Instr) (s : State) : Host.Outcome State Fault Refusal :=
  match i with
  | .mul => Sys2Proof.Machine.execMul s
  | .div => Sys2Proof.Machine.execDiv s
  | .mtsp ac => Sys2Proof.Machine.execMtsp ac s
  | .mfsp ac => Sys2Proof.Machine.execMfsp ac s
  | .mtfp ac => Sys2Proof.Machine.execMtfp ac s
  | .mffp ac => Sys2Proof.Machine.execMffp ac s
  | .psha ac => Sys2Proof.Machine.execPsha ac s
  | .popa ac => Sys2Proof.Machine.execPopa ac s
  | .sav => Sys2Proof.Machine.execSav s
  | .ret => Sys2Proof.Machine.execRet s
  | .ldb acs acd => Sys2Proof.Machine.execLdb acs acd s
  | .stb acs acd => Sys2Proof.Machine.execStb acs acd s
  | .trap acs acd number => Sys2Proof.Machine.execTrap acs acd number s

end Sys2Proof.Machine
end

