-- ==== Sys2Proof/Machine/Step.lean ====
section
/-! DEFINITION. One step (00_scope.md R9), and placing the next instruction. -/

namespace Sys2Proof.Machine

/-- A decoded word is executed; a word with no meaning is refused by name, "not an event of the machine"
(60_exceptions.md R175). -/
def execDecoded (d : Decoded) (s : State) : Host.Outcome State Fault Refusal :=
  match d with
  | .instr i => exec i s
  | .undefinedDevice1Code => .refused .undefinedDevice1Code
  | .notInScope => .refused .notInScope

/-- One step: a remembered stack fault that is due (60_exceptions.md R165), or else the instruction cycle of
00_scope.md R9: fetch, decode, execute. -/
def step (s : State) : Host.Outcome State Fault Refusal :=
  if s.latchedFaultDue then takeLatchedFault s
  else andThen (fetch s) fun w => execDecoded (decode w) s

/-- `s` with the one-word instruction `w` stored where the next step fetches. A remembered stack fault that is due would
be taken before that fetch, so it is withdrawn. -/
def State.withFetchWord (s : State) (nbits w : Nat) : State :=
  { s with
    mem := s.mem.writeWord s.pc (BitVec.ofNat 16 (w % 2 ^ nbits))
    stkpend := s.stkpend && !s.latchedFaultDue }

end Sys2Proof.Machine
end

