-- ==== Sys2Proof/Safety.lean ====
section
/-! DEFINITION. What the statements speak of: the invariant of the machine, the conditions under which an instruction is
executed, page crossings, the state after a stack fault, and the end of a run. -/

namespace Sys2Proof.Machine

/-- The state is one the spec allows: memory is in canonical form and holds only words that exist (20_memory.md R40);
USERMAP is 0 on an unmapped machine (10_state.md R26); STKPEND is 0 on a machine without the latch (10_state.md R28). -/
abbrev State.Inv (s : State) : Prop :=
  s.mem.wf ∧ (∀ x ∈ s.mem.cells, x.1 < 2 * s.params.memWords) ∧
  (s.params.mapped = false → s.usermap = false) ∧
  (s.params.stkFaultLatch = false → s.stkpend = false)

/-- A launch state (70_reset_and_hazards.md R190): an allowed state with no stack fault remembered (10_state.md R29). -/
abbrev State.IsLaunch (s : State) : Prop := s.Inv ∧ s.stkpend = false

/-- The feature group an instruction needs (00_scope.md R2; 30_encoding.md R68). -/
def featureOf (p : Params) : Instr → Bool
  | .mul => p.hasMulDiv
  | .div => p.hasMulDiv
  | .mtsp _ => p.hasStack
  | .mfsp _ => p.hasStack
  | .mtfp _ => p.hasStack
  | .mffp _ => p.hasStack
  | .psha _ => p.hasStack
  | .popa _ => p.hasStack
  | .sav => p.hasStack
  | .ret => p.hasStack
  | .ldb _ _ => p.hasByte
  | .stb _ _ => p.hasByte
  | .trap _ _ _ => p.hasTrap

/-- TRAP, the one instruction that is not refused for want of its feature or for the user map. -/
def isTrap : Instr → Bool
  | .trap _ _ _ => true
  | .mul => false
  | .div => false
  | .mtsp _ => false
  | .mfsp _ => false
  | .mtfp _ => false
  | .mffp _ => false
  | .psha _ => false
  | .popa _ => false
  | .sav => false
  | .ret => false
  | .ldb _ _ => false
  | .stb _ _ => false

/-- The instructions that use the stack: the ones that can raise a stack fault (60_exceptions.md R163). -/
def usesStack : Instr → Bool
  | .psha _ => true
  | .popa _ => true
  | .sav => true
  | .ret => true
  | .mul => false
  | .div => false
  | .mtsp _ => false
  | .mfsp _ => false
  | .mtfp _ => false
  | .mffp _ => false
  | .ldb _ _ => false
  | .stb _ _ => false
  | .trap _ _ _ => false

/-- A machine with the feature executes its instructions (30_encoding.md R68): the user map is off. -/
abbrev Runs (feature : Bool) (s : State) : Prop := feature = true ∧ s.mapOn = false

/-- The words `a`, `a + 1`, ..., `n` of them, modulo 2^15, exist. -/
abbrev HasWords (s : State) (a : Addr) (n : Nat) : Prop := ∀ k, k < n → s.hasWord (a + BitVec.ofNat 15 k) = true

/-- One of the `n` increments of SP from `sp` crosses a page boundary: "`(s + 1) mod PAGE_WORDS = 0`"
(42_stack.md R122). -/
abbrev CrossesUp (p : Params) (sp : Addr) (n : Nat) : Prop :=
  ∃ k, k < n ∧ (sp + BitVec.ofNat 15 (k + 1)).toNat % p.pageWords = 0

/-- One of the `n` decrements of SP from `sp` crosses a page boundary: "`s mod PAGE_WORDS = 0`" (42_stack.md R122). -/
abbrev CrossesDown (p : Params) (sp : Addr) (n : Nat) : Prop :=
  ∃ k, k < n ∧ (sp - BitVec.ofNat 15 k).toNat % p.pageWords = 0

/-- `t` is `u`, the state in which the instruction at `a` has completed, after stack fault entry (60_exceptions.md R164):
word 0 holds the address, ION is 0, PC is what word 3 holds, and nothing else has changed. -/
def StackFaultEntered (a : Addr) (u t : State) : Prop :=
  t = { u with mem := t.mem, ion := false, pc := low15 (u.mem.readWord 3) } ∧
  ∀ b : Addr, t.mem.readWord b = if b = 0 then zext16 a else u.mem.readWord b

/-- Where the instruction at `a` ends when its stack accesses are done and `u` is the state with all its writes
(42_stack.md R122; 60_exceptions.md R163 to R165): no crossing, `u`; a crossing with ION = 0, `u`, remembered if the
machine has the latch; a crossing with ION = 1, the handler, if its vector word is a direct address (R162). -/
def EndsAfterStackUse (a : Addr) (crossed : Prop) (u : State) (o : Host.Outcome State Fault Refusal) : Prop :=
  (¬ crossed → o = .next u) ∧
  (crossed → u.ion = false → u.params.stkFaultLatch = false → o = .next u) ∧
  (crossed → u.ion = false → u.params.stkFaultLatch = true → o = .next { u with stkpend := true }) ∧
  (crossed → u.ion = true → u.hasWord 0 = true → u.hasWord 3 = true → topBit (u.mem.readWord 3) = false →
    ∃ t, o = .next t ∧ StackFaultEntered a u t) ∧
  (crossed → u.ion = true → u.hasWord 0 = true → u.hasWord 3 = true → topBit (u.mem.readWord 3) = true →
    o = .refused .indirectChain) ∧
  (crossed → u.ion = true → (u.hasWord 0 && u.hasWord 3) = false → o = .refused .noSuchMemory)

/-- Where RET starts to pop: SP, or FP on a machine with `RET_SP_FROM_FP` (42_stack.md R120). -/
def retStart (s : State) : Addr := if s.params.retSpFromFp then s.fp else s.sp

/-- The memory after SAV's five pushes (42_stack.md R119). -/
def savMemory (s : State) : Memory :=
  ((((s.mem.writeWord (s.sp + 1) (s.ac .ac0)).writeWord (s.sp + 2) (s.ac .ac1)).writeWord (s.sp + 3)
    (s.ac .ac2)).writeWord (s.sp + 4) (zext16 s.fp)).writeWord (s.sp + 5) (packCarry s.c (low15 (s.ac .ac3)))

/-- The instruction moves SP across a page boundary by an increment or a decrement (42_stack.md R122). -/
def CrossesDuring (s : State) : Instr → Prop
  | .psha _ => CrossesUp s.params s.sp 1
  | .popa _ => CrossesDown s.params s.sp 1
  | .sav => CrossesUp s.params s.sp 5
  | .ret => CrossesDown s.params (retStart s) 5
  | .mul => False
  | .div => False
  | .mtsp _ => False
  | .mfsp _ => False
  | .mtfp _ => False
  | .mffp _ => False
  | .ldb _ _ => False
  | .stb _ _ => False
  | .trap _ _ _ => False

/-- How a run of some steps ends (70_reset_and_hazards.md R198). -/
inductive RunEnd where
  /-- PC is in STOP: the state is final -/
  | final (s : State)
  /-- the steps are used up before the end -/
  | running (s : State)
  /-- "A run that meets a `fault` ... outcome first is not final" -/
  | fault (r : Fault)
  /-- "... or a `refuse` outcome" -/
  | refused (r : Refusal)
deriving DecidableEq, Repr

/-- At most `n` steps from `s` with the set STOP: "the run ends, and its state is final, at the first instruction boundary
at which `PC` is in `STOP`, before the word at `PC` is fetched" (70_reset_and_hazards.md R198). -/
def runTo (stop : List Addr) : Nat → State → RunEnd
  | 0, s => if s.pc ∈ stop then .final s else .running s
  | n + 1, s =>
    if s.pc ∈ stop then .final s
    else match step s with
      | .next t => runTo stop n t
      | .fault r => .fault r
      | .refused r => .refused r

end Sys2Proof.Machine
end

