-- ==== Sys2Proof/Certificates/Slice0/Obligations.lean ====
section
/-! DEFINITION. The statements about the machine, from the numbered rules of spec/. In all of them `s.pc` is the address of
the instruction. PC + 1 after an instruction is the spec's decision D2 (assumption 23), that everything not named is
unchanged is its decision D3 (assumption 24), and wrap modulo 2^15 is its decision D30. -/

open Sys2Proof Sys2Proof.Machine

/-! ### Encoding (30_encoding.md) -/

/-- One word of each row of the table of 30_encoding.md R69, as the spec's figures and codes give it. The ten I/O words but
LDB and STB rest on general-knowledge codes (assumption 13). -/
def Obligations.DecodeReadsWordsOfTheTable : Prop :=
  decode 0x76C1 = .instr .mul ∧ decode 0x7641 = .instr .div ∧
  decode 0x7A01 = .instr (.mtsp .ac3) ∧ decode 0x6A81 = .instr (.mfsp .ac1) ∧
  decode 0x7001 = .instr (.mtfp .ac2) ∧ decode 0x7881 = .instr (.mffp .ac3) ∧
  decode 0x6B01 = .instr (.psha .ac1) ∧ decode 0x7381 = .instr (.popa .ac2) ∧
  decode 0x6501 = .instr .sav ∧ decode 0x6581 = .instr .ret ∧
  decode 0x7141 = .instr (.ldb .ac1 .ac2) ∧ decode 0x64C1 = .instr (.stb .ac3 .ac0) ∧
  decode 0xB538 = .instr (.trap .ac1 .ac2 83)

/-- Decoding the word of a well-formed instruction gives it back, with every operand at every value. -/
def Obligations.DecodeOfEncodeIsIdentity : Prop :=
  ∀ i : Instr, i.wf = true → decode (encode i) = .instr i

/-- The other direction: a word that decodes is the word of its instruction; only SAV and RET have further words, those
whose ignored bits 3-4 are not 0 (30_encoding.md R70 (b), decision D11, assumption 14). -/
def Obligations.EncodeOfDecodeIsTheWord : Prop :=
  ∀ (w : Word) (i : Instr), decode w = .instr i →
    i.wf = true ∧ (i ≠ .sav → i ≠ .ret → encode i = w) ∧
    (i = .sav → ∃ x, x < 4 ∧ w.toNat = 0x6501 + x * 0x800) ∧
    (i = .ret → ∃ x, x < 4 ∧ w.toNat = 0x6581 + x * 0x800)

/-- 30_encoding.md R70: SAV and RET ignore bits 3-4 and are assembled with 00 there (decision D11); MUL and DIV decode only
with AC = 2 (decision D12). Assumption 14. -/
def Obligations.AcFieldOfSavRetIsIgnored : Prop :=
  ∀ x : Nat, x < 4 →
    decode (BitVec.ofNat 16 (0x6501 + x * 0x800)) = .instr .sav ∧
    decode (BitVec.ofNat 16 (0x6581 + x * 0x800)) = .instr .ret ∧
    encode .sav = 0x6501 ∧ encode .ret = 0x6581 ∧
    decode (BitVec.ofNat 16 (0x66C1 + x * 0x800)) = (if x = 2 then .instr .mul else .undefinedDevice1Code) ∧
    decode (BitVec.ofNat 16 (0x6641 + x * 0x800)) = (if x = 2 then .instr .div else .undefinedDevice1Code)

/-- The undefined device-1 words are exactly those of the table of 30_encoding.md R71 (decision D13, assumption 15). -/
def Obligations.UndefinedDevice1Words : Prop :=
  ∀ w : Word, decode w = .undefinedDevice1Code ↔
    dg w 0 2 = 3 ∧ dg w 10 15 = 1 ∧
      (((dg w 5 7 = 0 ∨ dg w 5 7 = 2 ∨ dg w 5 7 = 3 ∨ dg w 5 7 = 5) ∧ (dg w 8 9 = 1 ∨ dg w 8 9 = 3)) ∨
       (dg w 5 7 = 6 ∧ (dg w 8 9 = 0 ∨ dg w 8 9 = 2)) ∨
       (dg w 5 7 = 6 ∧ (dg w 8 9 = 1 ∨ dg w 8 9 = 3) ∧ dg w 3 4 ≠ 2) ∨
       dg w 5 7 = 7)

/-- The words out of scope are exactly those 30_encoding.md R72 names (decision D1, assumption 15). -/
def Obligations.WordsOutOfScope : Prop :=
  ∀ w : Word, decode w = .notInScope ↔
    (dg w 0 2 = 0 ∨ dg w 0 2 = 1 ∨ dg w 0 2 = 2) ∨ (dg w 0 2 = 3 ∧ dg w 10 15 ≠ 1) ∨
      (dg w 0 0 = 1 ∧ dg w 12 15 ≠ 8)

/-- 30_encoding.md R64: every I/O-form and byte-form instruction has device code 1 in bits 10-15, in the word it is encoded
by and in every word that decodes to it. -/
def Obligations.IoWordsNameDevice1 : Prop :=
  ∀ i : Instr, isTrap i = false →
    dg (encode i) 10 15 = 1 ∧ ∀ w : Word, decode w = .instr i → dg w 10 15 = 1

/-- 30_encoding.md R66: the fields of a TRAP word, the word as a number, and that hardware does not interpret the three
operand fields. -/
def Obligations.TrapWordFields : Prop :=
  ∀ (acs acd : Acc) (n : Nat), n < 128 →
    (∀ (s : State) (acs' acd' : Acc) (n' : Nat), exec (.trap acs acd n) s = exec (.trap acs' acd' n') s) ∧
    (encode (.trap acs acd n)).toNat = 0x8008 + acs.number * 0x2000 + acd.number * 0x800 + n * 0x10 ∧
    dg (encode (.trap acs acd n)) 0 0 = 1 ∧ dg (encode (.trap acs acd n)) 1 2 = acs.number ∧
    dg (encode (.trap acs acd n)) 3 4 = acd.number ∧ dg (encode (.trap acs acd n)) 5 11 = n ∧
    dg (encode (.trap acs acd n)) 12 15 = 8

/-- 30_encoding.md R65: the fields of LDB and STB words (ACS in bits 8-9, as 90_conflicts.md C1 settles), and the words as
numbers. -/
def Obligations.ByteWordFields : Prop :=
  ∀ acs acd : Acc,
    (encode (.ldb acs acd)).toNat = 0x6101 + acd.number * 0x800 + acs.number * 0x40 ∧
    (encode (.stb acs acd)).toNat = 0x6401 + acd.number * 0x800 + acs.number * 0x40 ∧
    (dg (encode (.ldb acs acd)) 0 2 = 3 ∧ dg (encode (.ldb acs acd)) 3 4 = acd.number ∧
      dg (encode (.ldb acs acd)) 5 7 = 1 ∧ dg (encode (.ldb acs acd)) 8 9 = acs.number ∧
      dg (encode (.ldb acs acd)) 10 15 = 1) ∧
    (dg (encode (.stb acs acd)) 0 2 = 3 ∧ dg (encode (.stb acs acd)) 3 4 = acd.number ∧
      dg (encode (.stb acs acd)) 5 7 = 4 ∧ dg (encode (.stb acs acd)) 8 9 = acs.number ∧
      dg (encode (.stb acs acd)) 10 15 = 1)

/-! ### A step (00_scope.md R9) -/

/-- A step fetches the word at PC, decodes it and executes the instruction (00_scope.md R9), unless a remembered stack
fault is due. `exec` itself moves PC, so `step` adds nothing around it. In user mode this is the model's reading
(20_memory.md R49 (c), D23): the fetch is made at the untranslated address, so that TRAP can be recognised
(assumption 17). -/
def Obligations.StepRunsTheDecodedInstruction : Prop :=
  ∀ (s : State) (i : Instr), s.latchedFaultDue = false → s.hasWord s.pc = true →
    decode (s.mem.readWord s.pc) = .instr i → step s = exec i s

/-- A fetched word without a meaning is refused by name (30_encoding.md R71, R72, decisions D1, D13), and so is a fetch
from memory that does not exist (20_memory.md R40, decision D31). Assumptions 15, 29. In user mode R49 (c) has the fetch
refused as `userMapEnabled`; that a word with no meaning or an absent word keeps its own name there is the model's choice
(assumptions 17, 30: the fetch is untranslated and decoding comes before the mode test). -/
def Obligations.StepRefusesWordsWithoutMeaning : Prop :=
  ∀ s : State, s.latchedFaultDue = false →
    (s.hasWord s.pc = true → decode (s.mem.readWord s.pc) = .undefinedDevice1Code →
      step s = .refused .undefinedDevice1Code) ∧
    (s.hasWord s.pc = true → decode (s.mem.readWord s.pc) = .notInScope → step s = .refused .notInScope) ∧
    (s.hasWord s.pc = false → step s = .refused .noSuchMemory)

/-- `withFetchWord` does what it is for: the next step runs the word that was placed. `withFetchWord` is the model's own
device for loading a program (assumption 2), which withdraws a remembered stack fault that is due (assumption 20) and in
user mode stores where the untranslated fetch reads (assumption 17). -/
def Obligations.PlacedWordIsRunNext : Prop :=
  ∀ (s : State) (w : Nat) (i : Instr), s.mem.wf → s.hasWord s.pc = true → w < 65536 →
    decode (BitVec.ofNat 16 w) = .instr i → step (s.withFetchWord 16 w) = exec i (s.withFetchWord 16 w)

/-- 20_memory.md R53 (decision D27): an STB into the next instruction's word is seen by the next fetch. -/
def Obligations.StoreIntoNextInstructionIsFetched : Prop :=
  ∀ (s t : State) (acs acd : Acc), s.mem.wf → bytePtrWord (s.ac acd) = s.pc + 1 →
    exec (.stb acs acd) s = .next t →
    fetch t = .next (replaceByte s.params (bytePtrSelect (s.ac acd)) (rightByte (s.ac acs)) (s.mem.readWord (s.pc + 1)))

/-- 30_encoding.md R68: the feature test, then the mode test, before every instruction but TRAP (decisions D23, D33,
assumptions 16, 17). -/
def Obligations.FeatureAndModeTests : Prop :=
  ∀ (i : Instr) (s : State), isTrap i = false →
    (featureOf s.params i = false → exec i s = .refused .featureAbsent) ∧
    (featureOf s.params i = true → s.mapOn = true → exec i s = .refused .userMapEnabled)

/-- 20_memory.md R40 (decision D31, assumption 29): an access to a word at or above MEM_WORDS is refused. These are the
accesses of 20_memory.md R45 but the fetch (`StepRefusesWordsWithoutMeaning`) and stack fault entry
(`EndsAfterStackUse`, `RememberedFaultIsTaken`). A RET that first copies FP to SP (42_stack.md R120, D35, assumption 21)
answers so whatever SP's mark says: that the copy counts as a write of SP is the model's choice (assumption 37). -/
def Obligations.AbsentMemoryIsRefused : Prop :=
  ∀ (s : State) (acs acd : Acc) (n : Nat),
    (Runs s.params.hasStack s → s.spWritten = true → s.hasWord (s.sp + 1) = false →
      exec (.psha acs) s = .refused .noSuchMemory) ∧
    (Runs s.params.hasStack s → s.spWritten = true → s.hasWord s.sp = false →
      exec (.popa acd) s = .refused .noSuchMemory) ∧
    (Runs s.params.hasByte s → s.hasWord (bytePtrWord (s.ac acs)) = false →
      exec (.ldb acs acd) s = .refused .noSuchMemory) ∧
    (Runs s.params.hasByte s → s.hasWord (bytePtrWord (s.ac acd)) = false →
      exec (.stb acs acd) s = .refused .noSuchMemory) ∧
    (Runs s.params.hasStack s → s.spWritten = true → s.fpWritten = true →
      (∃ k, k < 5 ∧ s.hasWord (s.sp + 1 + BitVec.ofNat 15 k) = false) → exec .sav s = .refused .noSuchMemory) ∧
    (Runs s.params.hasStack s → (s.params.retSpFromFp = false → s.spWritten = true) →
      (s.params.retSpFromFp = true → s.fpWritten = true) →
      (∃ k, k < 5 ∧ s.hasWord (retStart s - BitVec.ofNat 15 k) = false) → exec .ret s = .refused .noSuchMemory) ∧
    (s.params.hasTrap = true → (s.hasWord 38 && s.hasWord 39) = false →
      exec (.trap acs acd n) s = .refused .noSuchMemory)

/-! ### Multiply and divide (41_multiply_divide.md) -/

/-- MUL completes (41_multiply_divide.md R101): unsigned (D4), the high half added into AC0 modulo 2^16 and the carry not
written (D5), or, under the other `MUL_MODE`, AC0 added to the product; nothing else changes. Assumption 12. -/
def Obligations.MulResult : Prop :=
  ∀ s : State, Runs s.params.hasMulDiv s →
    ∃ t, exec .mul s = .next t ∧ t = { s with acs := t.acs, pc := s.pc + 1 } ∧
      t.ac .ac2 = s.ac .ac2 ∧ t.ac .ac3 = s.ac .ac3 ∧
      (s.params.mulMode = .highAddedToAc0 →
        (t.ac .ac0).toNat = ((s.ac .ac0).toNat + (s.ac .ac1).toNat * (s.ac .ac2).toNat / 65536) % 65536 ∧
        (t.ac .ac1).toNat = (s.ac .ac1).toNat * (s.ac .ac2).toNat % 65536) ∧
      (s.params.mulMode = .ac0AddedToProduct →
        (t.ac .ac0).toNat * 65536 + (t.ac .ac1).toNat =
          (s.ac .ac1).toNat * (s.ac .ac2).toNat + (s.ac .ac0).toNat)

/-- DIV completes when AC0 < AC2 (41_multiply_divide.md R102): quotient and remainder of the unsigned division (D6), the
carry by `DIV_CARRY` (D8: a free value, or 0); nothing else changes. Assumptions 10, 34. -/
def Obligations.DivResult : Prop :=
  ∀ s : State, Runs s.params.hasMulDiv s → (s.ac .ac0).toNat < (s.ac .ac2).toNat →
    ∃ t, exec .div s = .next t ∧ t = { s with acs := t.acs, c := t.c, draws := t.draws, pc := s.pc + 1 } ∧
      t.ac .ac2 = s.ac .ac2 ∧ t.ac .ac3 = s.ac .ac3 ∧
      (s.ac .ac0).toNat * 65536 + (s.ac .ac1).toNat =
        (t.ac .ac1).toNat * (s.ac .ac2).toNat + (t.ac .ac0).toNat ∧
      (t.ac .ac0).toNat < (s.ac .ac2).toNat ∧
      (s.params.divCarry = .draw → t.c = Config.freeBit s.draws) ∧
      (s.params.divCarry = .overflowFlag → t.c = false)

/-- DIV when AC0 >= AC2, by `DIV_OVERFLOW` (41_multiply_divide.md R102, decision D7): the fault, the carry alone set, or
(the model's own choice, assumption 9) free values in AC0, AC1 and C and everything else as after any DIV. -/
def Obligations.DivWithNoQuotient : Prop :=
  ∀ s : State, Runs s.params.hasMulDiv s → (s.ac .ac2).toNat ≤ (s.ac .ac0).toNat →
    (s.params.divOverflow = .fault → exec .div s = .fault .divideUnspecified) ∧
    (s.params.divOverflow = .unchangedCarry1 → exec .div s = .next { s with c := true, pc := s.pc + 1 }) ∧
    (s.params.divOverflow = .draw →
      ∃ t, exec .div s = .next t ∧ t = { s with acs := t.acs, c := t.c, draws := t.draws, pc := s.pc + 1 } ∧
        t.ac .ac2 = s.ac .ac2 ∧ t.ac .ac3 = s.ac .ac3)

/-- 41_multiply_divide.md R102, "Relation to MUL": with AC0 = 0 and AC2 not 0, MUL then DIV restores AC1 and leaves 0 in
AC0, under both values of `MUL_MODE`. -/
def Obligations.MulThenDivRestores : Prop :=
  ∀ s : State, Runs s.params.hasMulDiv s → s.ac .ac0 = 0 → s.ac .ac2 ≠ 0 →
    ∃ t u, exec .mul s = .next t ∧ exec .div t = .next u ∧
      u.ac .ac1 = s.ac .ac1 ∧ u.ac .ac0 = 0 ∧ u.ac .ac2 = s.ac .ac2

/-- 41_multiply_divide.md R100, R101, 00_scope.md R10 (D3, D5, D33; assumptions 12, 16, 24): MUL and DIV are
refused exactly without `HAS_MULDIV`; they depend on no memory beyond their own fetch, no SP and no AC3; what they leave
unchanged, and where execution continues. -/
def Obligations.MulDivFrame : Prop :=
  ∀ (i : Instr) (s : State), i = .mul ∨ i = .div →
    (s.params.hasMulDiv = false ↔ exec i s = .refused .featureAbsent) ∧
    (∀ t (m : Memory) (p : Addr) (x : Word), exec i s = .next t →
      exec i { s.setAc .ac3 x with mem := m, sp := p } = .next { t.setAc .ac3 x with mem := m, sp := p }) ∧
    ∀ t, exec i s = .next t →
      t.ac .ac2 = s.ac .ac2 ∧ t.ac .ac3 = s.ac .ac3 ∧ t.sp = s.sp ∧ t.spWritten = s.spWritten ∧ t.fp = s.fp ∧
      t.fpWritten = s.fpWritten ∧ t.ion = s.ion ∧ t.usermap = s.usermap ∧ t.stkpend = s.stkpend ∧
      (∀ a, t.mem.readByte a = s.mem.readByte a) ∧ t.mem = s.mem ∧ t.params = s.params ∧ t.pc = s.pc + 1 ∧
      (i = .mul → t.c = s.c ∧ t.draws = s.draws)

/-! ### The stack (42_stack.md) -/

/-- MTSP completes (42_stack.md R113): SP is the accumulator's DG bits 1-15 (D9), SP counts as written, and no stack fault
is raised, whatever the old and new values. Assumption 22. -/
def Obligations.MtspResult : Prop :=
  ∀ (s : State) (ac : Acc), Runs s.params.hasStack s →
    exec (.mtsp ac) s =
      .next { s with sp := BitVec.ofNat 15 ((s.ac ac).toNat % 32768), spWritten := true, pc := s.pc + 1 }

/-- MFSP completes when SP is written (42_stack.md R114): zero extension (D10); otherwise it faults (10_state.md R30,
D28). Assumptions 3, 22. -/
def Obligations.MfspResult : Prop :=
  ∀ (s : State) (ac : Acc), Runs s.params.hasStack s →
    (s.spWritten = true →
      ∃ t, exec (.mfsp ac) s = .next t ∧ (t.ac ac).toNat = s.sp.toNat ∧ (∀ j, j ≠ ac → t.ac j = s.ac j) ∧
        t = { s with acs := t.acs, pc := s.pc + 1 }) ∧
    (s.spWritten = false → exec (.mfsp ac) s = .fault .unwrittenSP)

/-- MTFP completes (42_stack.md R115; D9). Assumption 22. -/
def Obligations.MtfpResult : Prop :=
  ∀ (s : State) (ac : Acc), Runs s.params.hasStack s →
    exec (.mtfp ac) s =
      .next { s with fp := BitVec.ofNat 15 ((s.ac ac).toNat % 32768), fpWritten := true, pc := s.pc + 1 }

/-- MFFP completes when FP is written (42_stack.md R116; D10); otherwise it faults (10_state.md R30, D28).
Assumptions 3, 22. -/
def Obligations.MffpResult : Prop :=
  ∀ (s : State) (ac : Acc), Runs s.params.hasStack s →
    (s.fpWritten = true →
      ∃ t, exec (.mffp ac) s = .next t ∧ (t.ac ac).toNat = s.fp.toNat ∧ (∀ j, j ≠ ac → t.ac j = s.ac j) ∧
        t = { s with acs := t.acs, pc := s.pc + 1 }) ∧
    (s.fpWritten = false → exec (.mffp ac) s = .fault .unwrittenFP)

/-- What the four pointer moves leave unchanged: MTSP and MTFP write no accumulator and only their pointer, MFSP and MFFP
only their accumulator; no flag, no memory. -/
def Obligations.PointerMoveFrame : Prop :=
  ∀ (s t : State) (ac : Acc),
    (exec (.mtsp ac) s = .next t → t = { s with sp := t.sp, spWritten := true, pc := s.pc + 1 } ∧
      ∀ a, t.mem.readByte a = s.mem.readByte a) ∧
    (exec (.mtfp ac) s = .next t → t = { s with fp := t.fp, fpWritten := true, pc := s.pc + 1 } ∧
      ∀ a, t.mem.readByte a = s.mem.readByte a) ∧
    (exec (.mfsp ac) s = .next t ∨ exec (.mffp ac) s = .next t →
      t = { s with acs := t.acs, pc := s.pc + 1 } ∧ (∀ j, j ≠ ac → t.ac j = s.ac j) ∧
      ∀ a, t.mem.readByte a = s.mem.readByte a)

/-- 10_state.md R30 and 70_reset_and_hazards.md R192 (D28, assumption 3): on a launch state whose SP is marked unwritten,
every instruction that uses the stack before MTSP faults. A RET that first copies FP to SP is the exception (assumption 37;
`RetResult`). -/
def Obligations.UnwrittenStackPointerFaults : Prop :=
  ∀ (s : State) (ac : Acc), Runs s.params.hasStack s → s.spWritten = false →
    exec (.mfsp ac) s = .fault .unwrittenSP ∧ exec (.psha ac) s = .fault .unwrittenSP ∧
    exec (.popa ac) s = .fault .unwrittenSP ∧ exec .sav s = .fault .unwrittenSP ∧
    (s.params.retSpFromFp = false → exec .ret s = .fault .unwrittenSP)

/-- 70_reset_and_hazards.md R193: the instructions that read FP are MFFP and SAV, and both fault on an unwritten FP; RET
only writes FP, so that it does not matter what FP held (on a machine whose RET is the source's), and no other instruction
reads it; after a SAV that completes FP is written. That FP is written after a RET too is the model's own reading of
10_state.md R24, R30 (assumption 36); the faults are decision D28 (assumption 3). -/
def Obligations.FramePointerMustBeWritten : Prop :=
  ∀ s : State, Runs s.params.hasStack s →
    (s.fpWritten = false →
      (∀ ac, exec (.mffp ac) s = .fault .unwrittenFP) ∧
      (s.spWritten = true → exec .sav s = .fault .unwrittenFP)) ∧
    (s.params.retSpFromFp = false →
      ∀ (x : Addr) (b : Bool), exec .ret { s with fp := x, fpWritten := b } = exec .ret s) ∧
    (∀ (i : Instr) (t : State) (x : Addr) (b : Bool), i ≠ .sav → i ≠ .ret → (∀ ac, i ≠ .mffp ac) →
      exec i s = .next t →
      ∃ u, exec i { s with fp := x, fpWritten := b } = .next u ∧ u = { t with fp := u.fp, fpWritten := u.fpWritten }) ∧
    (∀ t, exec .ret s = .next t → t.fpWritten = true) ∧
    (∀ t, exec .sav s = .next t → t.fpWritten = true)

/-- PSHA (42_stack.md R117, R111): the accumulator is stored at the incremented SP; then the page crossing rule (R122;
60_exceptions.md R163 to R165, decisions D17 to D20, assumptions 19, 20, 31). -/
def Obligations.PshaResult : Prop :=
  ∀ (s : State) (ac : Acc), Runs s.params.hasStack s → s.spWritten = true → s.hasWord (s.sp + 1) = true → s.mem.wf →
    EndsAfterStackUse s.pc (CrossesUp s.params s.sp 1)
      { s with mem := s.mem.writeWord (s.sp + 1) (s.ac ac), sp := s.sp + 1, pc := s.pc + 1 } (exec (.psha ac) s)

/-- POPA (42_stack.md R118, R112): the accumulator is loaded from the word at SP and SP is decremented; then the page
crossing rule (R122; 60_exceptions.md R163 to R165, decisions D17 to D20, assumptions 19, 20, 31). -/
def Obligations.PopaResult : Prop :=
  ∀ (s : State) (ac : Acc), Runs s.params.hasStack s → s.spWritten = true → s.hasWord s.sp = true → s.mem.wf →
    EndsAfterStackUse s.pc (CrossesDown s.params s.sp 1)
      { s with acs := s.acs.set ac (s.mem.readWord s.sp), sp := s.sp - 1, pc := s.pc + 1 } (exec (.popa ac) s)

/-- SAV (42_stack.md R119): five words pushed, then SP, FP and AC3 hold the updated stack pointer; then the page crossing
rule (decisions D10, D17 to D20, assumptions 19, 20, 22, 31). Five words in place imply that words 0 and 3 exist, so the
rule's last clause does not arise here. -/
def Obligations.SavResult : Prop :=
  ∀ s : State, Runs s.params.hasStack s → s.spWritten = true → s.fpWritten = true → HasWords s (s.sp + 1) 5 →
    s.mem.wf →
    EndsAfterStackUse s.pc (CrossesUp s.params s.sp 5)
      { s with
        mem := savMemory s, acs := s.acs.set .ac3 (zext16 (s.sp + 5)), sp := s.sp + 5, fp := s.sp + 5,
        pc := s.pc + 1 }
      (exec .sav s)

/-- The layout of the return block (42_stack.md R121): after a SAV that takes no stack fault, FP - 4 to FP hold AC0, AC1,
AC2, the old FP (DG bit 0 = 0, D10), and C over AC3's bits 1-15. -/
def Obligations.SavStoresReturnBlock : Prop :=
  ∀ s t : State, s.mem.wf → exec .sav s = .next t → t.ion = s.ion →
    t.fp = s.sp + 5 ∧ t.sp = s.sp + 5 ∧ (t.ac .ac3).toNat = (s.sp + 5).toNat ∧
    t.mem.readWord (t.fp - 4) = s.ac .ac0 ∧ t.mem.readWord (t.fp - 3) = s.ac .ac1 ∧
    t.mem.readWord (t.fp - 2) = s.ac .ac2 ∧ (t.mem.readWord (t.fp - 1)).toNat = s.fp.toNat ∧
    (t.mem.readWord t.fp).toNat = (if s.c then 32768 else 0) + (s.ac .ac3).toNat % 32768

/-- RET (42_stack.md R120): the words at `p`, `p - 1`, ..., `p - 4` go to C and PC, AC3 (and FP), AC2, AC1, AC0, where `p`
is SP, or FP on a machine with `RET_SP_FROM_FP` (D35, assumption 21); then the page crossing rule, and a stack fault
replaces the PC (D36; assumptions 19, 20, 31). FP counts as written afterwards (assumption 36), and so does SP after the
copy from FP (assumption 37). Five words in place imply that words 0 and 3 exist, so the rule's last clause
does not arise here. -/
def Obligations.RetResult : Prop :=
  ∀ s : State, Runs s.params.hasStack s →
    (s.params.retSpFromFp = true → s.fpWritten = false → exec .ret s = .fault .unwrittenFP) ∧
    ((s.params.retSpFromFp = false → s.spWritten = true) → (s.params.retSpFromFp = true → s.fpWritten = true) →
      HasWords s (retStart s - 4) 5 → s.mem.wf →
      EndsAfterStackUse s.pc (CrossesDown s.params (retStart s) 5)
        { s with
          acs :=
            { ac0 := s.mem.readWord (retStart s - 4)
              ac1 := s.mem.readWord (retStart s - 3)
              ac2 := s.mem.readWord (retStart s - 2)
              ac3 := s.mem.readWord (retStart s - 1) }
          c := topBit (s.mem.readWord (retStart s))
          pc := low15 (s.mem.readWord (retStart s))
          sp := retStart s - 5
          spWritten := true
          fp := low15 (s.mem.readWord (retStart s - 1))
          fpWritten := true }
        (exec .ret s))

/-- 42_stack.md R120, R123: whatever the body of a subroutine did between SAV and RET, if SP and FP are back at their values
after SAV and the five words of the block are as SAV left them, RET restores AC0 to AC2, C, FP and SP, goes to the return
address AC3 held, and leaves the caller's frame pointer in AC3. At each of the two, ION = 0 or no page is crossed, so that
no stack fault intervenes. -/
def Obligations.SavThenRet : Prop :=
  ∀ s t r : State, s.mem.wf → (s.ion = false ∨ ¬ CrossesUp s.params s.sp 5) → exec .sav s = .next t →
    r.params = s.params → r.mapOn = false → (r.ion = false ∨ ¬ CrossesDown r.params r.sp 5) → r.sp = t.sp →
    r.spWritten = true → r.fp = t.fp → r.fpWritten = true →
    (∀ k, k < 5 → r.mem.readWord (t.fp - BitVec.ofNat 15 k) = t.mem.readWord (t.fp - BitVec.ofNat 15 k)) →
    ∃ u, exec .ret r = .next u ∧ u.ac .ac0 = s.ac .ac0 ∧ u.ac .ac1 = s.ac .ac1 ∧ u.ac .ac2 = s.ac .ac2 ∧ u.c = s.c ∧
      u.fp = s.fp ∧ u.sp = s.sp ∧ u.pc = low15 (s.ac .ac3) ∧ u.ac .ac3 = zext16 s.fp

/-- 42_stack.md R112: "`Push(v)` followed by `Pop()` returns `v` and restores `SP`". -/
def Obligations.PushThenPop : Prop :=
  ∀ (v : Word) (w w1 : Work), w.st.mem.wf → push v w = .next w1 →
    ∃ w2, pop w1 = .next (v, w2) ∧ w2.st.sp = w.st.sp

/-- 42_stack.md R122 (D17, assumption 31): the two tests of a page crossing say that SP moves between different pages,
the wraps between 0x7FFF and 0 among them. -/
def Obligations.PageCrossingIsChangeOfPage : Prop :=
  ∀ (p : Params) (a : Addr), 0 < p.pageWords → p.pageWords < 32768 →
    (CrossesUp p a 1 ↔ a.toNat / p.pageWords ≠ (a + 1).toNat / p.pageWords) ∧
    (CrossesDown p a 1 ↔ a.toNat / p.pageWords ≠ (a - 1).toNat / p.pageWords)

/-- 60_exceptions.md R163 (D18, D19): an instruction that completes changes ION exactly when ION was 1 and it moved SP
across a page boundary, which only PSHA, POPA, SAV and RET can; the change is the stack fault. -/
def Obligations.StackFaultTakenExactlyOnCrossing : Prop :=
  ∀ (i : Instr) (s t : State), exec i s = .next t →
    (t.ion ≠ s.ion ↔ s.ion = true ∧ CrossesDuring s i) ∧ (t.ion ≠ s.ion → usesStack i = true)

/-- 60_exceptions.md R165 (D20, assumption 20): a remembered stack fault is taken at the first instruction boundary with
ION = 1; the address it records is a free value. It is refused where its accesses are: in user mode (20_memory.md R49, D23;
assumption 20), where word 0 or 3 does not exist (R40, D31), and on a vector word with DG bit 0 = 1 (R162, D22). -/
def Obligations.RememberedFaultIsTaken : Prop :=
  ∀ s : State, s.latchedFaultDue = true →
    (s.mapOn = true → step s = .refused .userMapEnabled) ∧
    (s.mapOn = false → (s.hasWord 0 && s.hasWord 3) = false → step s = .refused .noSuchMemory) ∧
    (s.mapOn = false → s.hasWord 0 = true → s.hasWord 3 = true → topBit (s.mem.readWord 3) = true →
      step s = .refused .indirectChain) ∧
    (s.mapOn = false → s.hasWord 0 = true → s.hasWord 3 = true → topBit (s.mem.readWord 3) = false → s.mem.wf →
      ∃ t, step s = .next t ∧
        StackFaultEntered (Config.freeAddr s.draws) { s with stkpend := false, draws := t.draws } t)

/-- What PSHA leaves unchanged: everything but SP, PC, the word at SP + 1 and, by the page crossing rule, ION and word 0
(a stack fault) or STKPEND. -/
def Obligations.PshaFrame : Prop :=
  ∀ (s t : State) (ac : Acc), exec (.psha ac) s = .next t →
    (∀ j, t.ac j = s.ac j) ∧ t.c = s.c ∧ t.fp = s.fp ∧ t.fpWritten = s.fpWritten ∧ t.spWritten = s.spWritten ∧
    t.usermap = s.usermap ∧ t.params = s.params ∧ t.draws = s.draws ∧
    (¬ (s.ion = true ∧ CrossesUp s.params s.sp 1) → t.ion = s.ion) ∧
    (¬ (s.ion = false ∧ s.params.stkFaultLatch = true ∧ CrossesUp s.params s.sp 1) → t.stkpend = s.stkpend) ∧
    ∀ a : Nat, a / 2 ≠ (s.sp + 1).toNat → ¬ (a / 2 = 0 ∧ s.ion = true ∧ CrossesUp s.params s.sp 1) →
      t.mem.readByte a = s.mem.readByte a

/-- What POPA leaves unchanged: everything but its accumulator, SP, PC and, by the page crossing rule, ION and word 0 (a
stack fault) or STKPEND. -/
def Obligations.PopaFrame : Prop :=
  ∀ (s t : State) (ac : Acc), exec (.popa ac) s = .next t →
    (∀ j, j ≠ ac → t.ac j = s.ac j) ∧ t.c = s.c ∧ t.fp = s.fp ∧ t.fpWritten = s.fpWritten ∧
    t.spWritten = s.spWritten ∧ t.usermap = s.usermap ∧ t.params = s.params ∧ t.draws = s.draws ∧
    (¬ (s.ion = true ∧ CrossesDown s.params s.sp 1) → t.ion = s.ion) ∧
    (¬ (s.ion = false ∧ s.params.stkFaultLatch = true ∧ CrossesDown s.params s.sp 1) → t.stkpend = s.stkpend) ∧
    ∀ a : Nat, ¬ (a / 2 = 0 ∧ s.ion = true ∧ CrossesDown s.params s.sp 1) →
      t.mem.readByte a = s.mem.readByte a

/-- What SAV leaves unchanged: everything but AC3, SP, FP, PC, the five words from SP + 1 and, by the page crossing rule,
ION and word 0 (a stack fault) or STKPEND. -/
def Obligations.SavFrame : Prop :=
  ∀ s t : State, exec .sav s = .next t →
    (∀ j, j ≠ .ac3 → t.ac j = s.ac j) ∧ t.c = s.c ∧ t.spWritten = s.spWritten ∧ t.fpWritten = s.fpWritten ∧
    t.usermap = s.usermap ∧ t.params = s.params ∧ t.draws = s.draws ∧
    (¬ (s.ion = true ∧ CrossesUp s.params s.sp 5) → t.ion = s.ion) ∧
    (¬ (s.ion = false ∧ s.params.stkFaultLatch = true ∧ CrossesUp s.params s.sp 5) → t.stkpend = s.stkpend) ∧
    ∀ a : Nat, (∀ k, k < 5 → a / 2 ≠ (s.sp + 1 + BitVec.ofNat 15 k).toNat) →
      ¬ (a / 2 = 0 ∧ s.ion = true ∧ CrossesUp s.params s.sp 5) → t.mem.readByte a = s.mem.readByte a

/-- What RET leaves unchanged: the user map, the parameters, all of memory ("The word popped stays in memory",
42_stack.md R112) and, but for the page crossing rule, ION and STKPEND; a stack fault stores word 0 alone. -/
def Obligations.RetFrame : Prop :=
  ∀ s t : State, exec .ret s = .next t →
    t.usermap = s.usermap ∧ t.params = s.params ∧ t.draws = s.draws ∧
    (¬ (s.ion = true ∧ CrossesDown s.params (retStart s) 5) → t.ion = s.ion) ∧
    (¬ (s.ion = false ∧ s.params.stkFaultLatch = true ∧ CrossesDown s.params (retStart s) 5) →
      t.stkpend = s.stkpend) ∧
    ∀ a : Nat, ¬ (a / 2 = 0 ∧ s.ion = true ∧ CrossesDown s.params (retStart s) 5) →
      t.mem.readByte a = s.mem.readByte a

/-! ### Bytes (43_byte.md) -/

/-- LDB completes (43_byte.md R141): the byte the pointer names, zero extended (D14, D15, assumption 27); the pointer is
read before the destination is written, so it may be the same accumulator. -/
def Obligations.LdbResult : Prop :=
  ∀ (s : State) (acs acd : Acc), Runs s.params.hasByte s →
    s.hasWord (BitVec.ofNat 15 ((s.ac acs).toNat / 2)) = true →
    ∃ t, exec (.ldb acs acd) s = .next t ∧ t = { s with acs := t.acs, pc := s.pc + 1 } ∧
      (∀ j, j ≠ acd → t.ac j = s.ac j) ∧
      (t.ac acd).toNat =
        if (s.ac acs).toNat % 2 = s.params.byteSelectLeft.toNat
        then (s.mem.readWord (BitVec.ofNat 15 ((s.ac acs).toNat / 2))).toNat / 256
        else (s.mem.readWord (BitVec.ofNat 15 ((s.ac acs).toNat / 2))).toNat % 256

/-- STB completes (43_byte.md R142): the right half of ACS replaces the byte the pointer in ACD names, the other half of the
word is kept (D14, D15, assumption 27), every other word is unchanged. -/
def Obligations.StbResult : Prop :=
  ∀ (s : State) (acs acd : Acc), Runs s.params.hasByte s → s.mem.wf →
    s.hasWord (BitVec.ofNat 15 ((s.ac acd).toNat / 2)) = true →
    ∃ t, exec (.stb acs acd) s = .next t ∧ t = { s with mem := t.mem, pc := s.pc + 1 } ∧
      (∀ b, b ≠ BitVec.ofNat 15 ((s.ac acd).toNat / 2) → t.mem.readWord b = s.mem.readWord b) ∧
      (t.mem.readWord (BitVec.ofNat 15 ((s.ac acd).toNat / 2))).toNat =
        if (s.ac acd).toNat % 2 = s.params.byteSelectLeft.toNat
        then (s.ac acs).toNat % 256 * 256 + (s.mem.readWord (BitVec.ofNat 15 ((s.ac acd).toNat / 2))).toNat % 256
        else (s.mem.readWord (BitVec.ofNat 15 ((s.ac acd).toNat / 2))).toNat / 256 * 256 + (s.ac acs).toNat % 256

/-- 43_byte.md R142: "`STB` followed by `LDB` through the same pointer returns `AC[acs] mod 256`", for both values of
`BYTE_SELECT_LEFT`. -/
def Obligations.StbThenLdb : Prop :=
  ∀ (s t : State) (acs acd dst : Acc), s.mem.wf → exec (.stb acs acd) s = .next t →
    ∃ u, exec (.ldb acd dst) t = .next u ∧ (u.ac dst).toNat = (s.ac acs).toNat % 256

/-- What LDB and STB leave unchanged (43_byte.md R140): LDB writes one accumulator, STB one word. -/
def Obligations.ByteFrame : Prop :=
  ∀ (s t : State) (acs acd : Acc),
    (exec (.ldb acs acd) s = .next t →
      t = { s with acs := t.acs, pc := s.pc + 1 } ∧ (∀ j, j ≠ acd → t.ac j = s.ac j) ∧
      ∀ a, t.mem.readByte a = s.mem.readByte a) ∧
    (exec (.stb acs acd) s = .next t →
      t = { s with mem := t.mem, pc := s.pc + 1 } ∧
      ∀ a : Nat, a / 2 ≠ (bytePtrWord (s.ac acd)).toNat → t.mem.readByte a = s.mem.readByte a)

/-! ### TRAP and events (44_trap.md, 60_exceptions.md) -/

/-- TRAP on a machine with the feature completes by taking the instruction trap (44_trap.md R151; 60_exceptions.md R166):
the user map is disabled, the address of the TRAP goes to location 0o46 (D21, D37), PC is loaded through location 0o47;
the three fields, ION, the accumulators and the carry play no part (D32, assumption 28). A vector word with DG bit 0 = 1
is refused (R162, D22, assumption 18). -/
def Obligations.TrapEntersHandler : Prop :=
  ∀ (s : State) (acs acd : Acc) (n : Nat), s.params.hasTrap = true → s.hasWord 38 = true → s.hasWord 39 = true →
    s.mem.wf →
    (topBit (s.mem.readWord 39) = false →
      ∃ t, exec (.trap acs acd n) s = .next t ∧
        t = { s with mem := t.mem, usermap := t.usermap, pc := low15 (s.mem.readWord 39) } ∧
        (∀ b : Addr, t.mem.readWord b = if b = 38 then zext16 s.pc else s.mem.readWord b) ∧
        (s.params.mapped = true → t.usermap = false) ∧ (s.params.mapped = false → t.usermap = s.usermap)) ∧
    (topBit (s.mem.readWord 39) = true → exec (.trap acs acd n) s = .refused .indirectChain)

/-- 44_trap.md R152: without the trap feature the TRAP words are no-ops. -/
def Obligations.TrapIsNoOpWithoutTheFeature : Prop :=
  ∀ (s : State) (acs acd : Acc) (n : Nat), s.params.hasTrap = false → s.mapOn = false →
    exec (.trap acs acd n) s = .next { s with pc := s.pc + 1 }

/-- What TRAP leaves unchanged: all registers, ION and the carry; of memory it stores word 0o46 alone, and nothing on a
machine without the feature. With the user map enabled and no trap feature it is refused (assumption 30). -/
def Obligations.TrapFrame : Prop :=
  ∀ (s : State) (acs acd : Acc) (n : Nat),
    (s.params.hasTrap = false → s.mapOn = true → exec (.trap acs acd n) s = .refused .userMapEnabled) ∧
    ∀ t, exec (.trap acs acd n) s = .next t →
      t = { s with mem := t.mem, usermap := t.usermap, pc := t.pc } ∧
      (∀ a : Nat, a / 2 ≠ 38 ∨ s.params.hasTrap = false → t.mem.readByte a = s.mem.readByte a)

/-- `JumpIndirect` (60_exceptions.md R162, D22, assumption 18): control goes to the address the word holds, and a word with
DG bit 0 = 1 is refused. -/
def Obligations.JumpGoesThroughTheVectorWord : Prop :=
  ∀ (s : State) (loc : Addr), s.mapOn = false → s.hasWord loc = true →
    ((s.mem.readWord loc).toNat < 32768 →
      jumpIndirect loc s = .next { s with pc := BitVec.ofNat 15 (s.mem.readWord loc).toNat }) ∧
    (32768 ≤ (s.mem.readWord loc).toNat → jumpIndirect loc s = .refused .indirectChain)

/-! ### The whole machine -/

/-- 10_state.md R25: "No instruction in scope sets `ION`"; nor does any step. -/
def Obligations.IonIsNeverSet : Prop :=
  ∀ s t : State, step s = .next t → t.ion = true → s.ion = true

/-- 10_state.md R26 (D23, assumption 17): TRAP is the only instruction that changes the user map enable, and it turns it
off; since everything else is refused while it is on, every step that completes on a mapped machine ends with the user map
off, and on an unmapped machine the bit does not move. -/
def Obligations.UserMapIsOffAfterAStep : Prop :=
  (∀ s t : State, step s = .next t →
    (s.params.mapped = true → t.usermap = false) ∧ (s.params.mapped = false → t.usermap = s.usermap)) ∧
  ∀ (i : Instr) (s t : State), exec i s = .next t → t.usermap ≠ s.usermap → isTrap i = true

/-- The parameters are arguments of the model (00_scope.md R5): no step changes them (assumption 7). -/
def Obligations.ParametersNeverChange : Prop :=
  ∀ s t : State, step s = .next t → t.params = s.params

/-- 10_state.md R30: once SP or FP is written it stays written. -/
def Obligations.WrittenMarksAreNeverLost : Prop :=
  ∀ s t : State, step s = .next t →
    (s.spWritten = true → t.spWritten = true) ∧ (s.fpWritten = true → t.fpWritten = true)

/-- 10_state.md R21: of the instructions only DIV and RET write the carry. -/
def Obligations.CarryIsWrittenOnlyByDivAndRet : Prop :=
  ∀ (i : Instr) (s t : State), exec i s = .next t → i ≠ .div → i ≠ .ret → t.c = s.c

/-- 10_state.md R23, R24: SP is written only by MTSP, PSHA, POPA, SAV and RET, FP only by MTFP, SAV and RET. -/
def Obligations.PointersAreWrittenOnlyByTheirInstructions : Prop :=
  ∀ (i : Instr) (s t : State), exec i s = .next t →
    (usesStack i = false → (∀ ac, i ≠ .mtsp ac) → t.sp = s.sp ∧ t.spWritten = s.spWritten) ∧
    (i ≠ .sav → i ≠ .ret → (∀ ac, i ≠ .mtfp ac) → t.fp = s.fp ∧ t.fpWritten = s.fpWritten)

/-- Every step, from every allowed state and not only from those a run reaches, ends in an allowed state: memory keeps its
canonical form and lists only words that exist, USERMAP stays 0 on an unmapped machine, STKPEND on one without the
latch. -/
def Obligations.StepKeepsInvariant : Prop :=
  ∀ s t : State, s.Inv → step s = .next t → t.Inv

/-- The state after reset is an allowed state. -/
def Obligations.ResetMeetsInvariant : Prop := State.reset.Inv

/-- What reset leaves: STKPEND 0, as the spec says (10_state.md R29); every other value is the model's choice
(assumptions 1 to 5, 8), since R29 leaves it unspecified. -/
def Obligations.ResetValues : Prop :=
  State.reset.stkpend = false ∧ (∀ i, State.reset.ac i = 0) ∧ State.reset.c = false ∧ State.reset.pc = 0 ∧
  State.reset.sp = 0 ∧ State.reset.spWritten = true ∧ State.reset.fp = 0 ∧ State.reset.fpWritten = true ∧
  State.reset.ion = false ∧ State.reset.usermap = false ∧ (∀ a, State.reset.mem.readWord a = 0) ∧
  State.reset.params = defaultParams ∧ State.reset.params.wf = true

/-- Memory in canonical form is determined by what it reads as, so that equal memories are equal data (assumption 6). -/
def Obligations.EqualReadsMakeEqualMemories : Prop :=
  ∀ m n : Memory, m.wf → n.wf → (∀ a : Addr, m.readWord a = n.readWord a) → m = n

/-- 70_reset_and_hazards.md R198 (D29, assumption 32): a run ends at the first instruction boundary at which PC is in STOP,
before the fetch, and otherwise goes on with the next step. -/
def Obligations.RunEndsAtStop : Prop :=
  ∀ (stop : List Addr) (n : Nat) (s : State),
    (s.pc ∈ stop → runTo stop n s = .final s) ∧
    (s.pc ∉ stop → ∀ t, step s = .next t → runTo stop (n + 1) s = runTo stop n t) ∧
    ∀ t, runTo stop n s = .final t → t.pc ∈ stop
end

