-- ==== Sys2Proof/Laws/State.lean ====
section
/-! SUPPORT. What each named update of a state does to each field, true by unfolding, for `simp`; so that no later proof
unfolds a record update. -/

namespace Sys2Proof.Machine

variable (s : State)

/-! ### Accumulators -/

@[simp] theorem Accs.get_set (r : Accs) (i j : Acc) (v : Word) : (r.set i v).get j = if j = i then v else r.get j := by
  cases i <;> cases j <;> rfl

@[simp] theorem State.acs_get (i : Acc) : s.acs.get i = s.ac i := rfl

@[simp] theorem State.setAc_ac (i j : Acc) (v : Word) : (s.setAc i v).ac j = if j = i then v else s.ac j :=
  Accs.get_set s.acs i j v

/-! ### setAc -/

@[simp] theorem State.setAc_acs (i : Acc) (v : Word) : (s.setAc i v).acs = s.acs.set i v := rfl
@[simp] theorem State.setAc_c (i : Acc) (v : Word) : (s.setAc i v).c = s.c := rfl
@[simp] theorem State.setAc_pc (i : Acc) (v : Word) : (s.setAc i v).pc = s.pc := rfl
@[simp] theorem State.setAc_sp (i : Acc) (v : Word) : (s.setAc i v).sp = s.sp := rfl
@[simp] theorem State.setAc_spWritten (i : Acc) (v : Word) : (s.setAc i v).spWritten = s.spWritten := rfl
@[simp] theorem State.setAc_fp (i : Acc) (v : Word) : (s.setAc i v).fp = s.fp := rfl
@[simp] theorem State.setAc_fpWritten (i : Acc) (v : Word) : (s.setAc i v).fpWritten = s.fpWritten := rfl
@[simp] theorem State.setAc_ion (i : Acc) (v : Word) : (s.setAc i v).ion = s.ion := rfl
@[simp] theorem State.setAc_usermap (i : Acc) (v : Word) : (s.setAc i v).usermap = s.usermap := rfl
@[simp] theorem State.setAc_stkpend (i : Acc) (v : Word) : (s.setAc i v).stkpend = s.stkpend := rfl
@[simp] theorem State.setAc_mem (i : Acc) (v : Word) : (s.setAc i v).mem = s.mem := rfl
@[simp] theorem State.setAc_params (i : Acc) (v : Word) : (s.setAc i v).params = s.params := rfl
@[simp] theorem State.setAc_draws (i : Acc) (v : Word) : (s.setAc i v).draws = s.draws := rfl
@[simp] theorem State.setAc_mapOn (i : Acc) (v : Word) : (s.setAc i v).mapOn = s.mapOn := rfl
@[simp] theorem State.setAc_hasWord (i : Acc) (v : Word) (a : Addr) : (s.setAc i v).hasWord a = s.hasWord a := rfl

/-! ### setC -/

@[simp] theorem State.setC_acs (v : Bool) : (s.setC v).acs = s.acs := rfl
@[simp] theorem State.setC_c (v : Bool) : (s.setC v).c = v := rfl
@[simp] theorem State.setC_pc (v : Bool) : (s.setC v).pc = s.pc := rfl
@[simp] theorem State.setC_sp (v : Bool) : (s.setC v).sp = s.sp := rfl
@[simp] theorem State.setC_spWritten (v : Bool) : (s.setC v).spWritten = s.spWritten := rfl
@[simp] theorem State.setC_fp (v : Bool) : (s.setC v).fp = s.fp := rfl
@[simp] theorem State.setC_fpWritten (v : Bool) : (s.setC v).fpWritten = s.fpWritten := rfl
@[simp] theorem State.setC_ion (v : Bool) : (s.setC v).ion = s.ion := rfl
@[simp] theorem State.setC_usermap (v : Bool) : (s.setC v).usermap = s.usermap := rfl
@[simp] theorem State.setC_stkpend (v : Bool) : (s.setC v).stkpend = s.stkpend := rfl
@[simp] theorem State.setC_mem (v : Bool) : (s.setC v).mem = s.mem := rfl
@[simp] theorem State.setC_params (v : Bool) : (s.setC v).params = s.params := rfl
@[simp] theorem State.setC_draws (v : Bool) : (s.setC v).draws = s.draws := rfl
@[simp] theorem State.setC_ac (v : Bool) (j : Acc) : (s.setC v).ac j = s.ac j := rfl
@[simp] theorem State.setC_mapOn (v : Bool) : (s.setC v).mapOn = s.mapOn := rfl
@[simp] theorem State.setC_hasWord (v : Bool) (a : Addr) : (s.setC v).hasWord a = s.hasWord a := rfl

/-! ### setPc -/

@[simp] theorem State.setPc_acs (v : Addr) : (s.setPc v).acs = s.acs := rfl
@[simp] theorem State.setPc_c (v : Addr) : (s.setPc v).c = s.c := rfl
@[simp] theorem State.setPc_pc (v : Addr) : (s.setPc v).pc = v := rfl
@[simp] theorem State.setPc_sp (v : Addr) : (s.setPc v).sp = s.sp := rfl
@[simp] theorem State.setPc_spWritten (v : Addr) : (s.setPc v).spWritten = s.spWritten := rfl
@[simp] theorem State.setPc_fp (v : Addr) : (s.setPc v).fp = s.fp := rfl
@[simp] theorem State.setPc_fpWritten (v : Addr) : (s.setPc v).fpWritten = s.fpWritten := rfl
@[simp] theorem State.setPc_ion (v : Addr) : (s.setPc v).ion = s.ion := rfl
@[simp] theorem State.setPc_usermap (v : Addr) : (s.setPc v).usermap = s.usermap := rfl
@[simp] theorem State.setPc_stkpend (v : Addr) : (s.setPc v).stkpend = s.stkpend := rfl
@[simp] theorem State.setPc_mem (v : Addr) : (s.setPc v).mem = s.mem := rfl
@[simp] theorem State.setPc_params (v : Addr) : (s.setPc v).params = s.params := rfl
@[simp] theorem State.setPc_draws (v : Addr) : (s.setPc v).draws = s.draws := rfl
@[simp] theorem State.setPc_ac (v : Addr) (j : Acc) : (s.setPc v).ac j = s.ac j := rfl
@[simp] theorem State.setPc_mapOn (v : Addr) : (s.setPc v).mapOn = s.mapOn := rfl
@[simp] theorem State.setPc_hasWord (v : Addr) (a : Addr) : (s.setPc v).hasWord a = s.hasWord a := rfl

/-! ### setSp -/

@[simp] theorem State.setSp_acs (v : Addr) : (s.setSp v).acs = s.acs := rfl
@[simp] theorem State.setSp_c (v : Addr) : (s.setSp v).c = s.c := rfl
@[simp] theorem State.setSp_pc (v : Addr) : (s.setSp v).pc = s.pc := rfl
@[simp] theorem State.setSp_sp (v : Addr) : (s.setSp v).sp = v := rfl
@[simp] theorem State.setSp_spWritten (v : Addr) : (s.setSp v).spWritten = true := rfl
@[simp] theorem State.setSp_fp (v : Addr) : (s.setSp v).fp = s.fp := rfl
@[simp] theorem State.setSp_fpWritten (v : Addr) : (s.setSp v).fpWritten = s.fpWritten := rfl
@[simp] theorem State.setSp_ion (v : Addr) : (s.setSp v).ion = s.ion := rfl
@[simp] theorem State.setSp_usermap (v : Addr) : (s.setSp v).usermap = s.usermap := rfl
@[simp] theorem State.setSp_stkpend (v : Addr) : (s.setSp v).stkpend = s.stkpend := rfl
@[simp] theorem State.setSp_mem (v : Addr) : (s.setSp v).mem = s.mem := rfl
@[simp] theorem State.setSp_params (v : Addr) : (s.setSp v).params = s.params := rfl
@[simp] theorem State.setSp_draws (v : Addr) : (s.setSp v).draws = s.draws := rfl
@[simp] theorem State.setSp_ac (v : Addr) (j : Acc) : (s.setSp v).ac j = s.ac j := rfl
@[simp] theorem State.setSp_mapOn (v : Addr) : (s.setSp v).mapOn = s.mapOn := rfl
@[simp] theorem State.setSp_hasWord (v : Addr) (a : Addr) : (s.setSp v).hasWord a = s.hasWord a := rfl

/-! ### setFp -/

@[simp] theorem State.setFp_acs (v : Addr) : (s.setFp v).acs = s.acs := rfl
@[simp] theorem State.setFp_c (v : Addr) : (s.setFp v).c = s.c := rfl
@[simp] theorem State.setFp_pc (v : Addr) : (s.setFp v).pc = s.pc := rfl
@[simp] theorem State.setFp_sp (v : Addr) : (s.setFp v).sp = s.sp := rfl
@[simp] theorem State.setFp_spWritten (v : Addr) : (s.setFp v).spWritten = s.spWritten := rfl
@[simp] theorem State.setFp_fp (v : Addr) : (s.setFp v).fp = v := rfl
@[simp] theorem State.setFp_fpWritten (v : Addr) : (s.setFp v).fpWritten = true := rfl
@[simp] theorem State.setFp_ion (v : Addr) : (s.setFp v).ion = s.ion := rfl
@[simp] theorem State.setFp_usermap (v : Addr) : (s.setFp v).usermap = s.usermap := rfl
@[simp] theorem State.setFp_stkpend (v : Addr) : (s.setFp v).stkpend = s.stkpend := rfl
@[simp] theorem State.setFp_mem (v : Addr) : (s.setFp v).mem = s.mem := rfl
@[simp] theorem State.setFp_params (v : Addr) : (s.setFp v).params = s.params := rfl
@[simp] theorem State.setFp_draws (v : Addr) : (s.setFp v).draws = s.draws := rfl
@[simp] theorem State.setFp_ac (v : Addr) (j : Acc) : (s.setFp v).ac j = s.ac j := rfl
@[simp] theorem State.setFp_mapOn (v : Addr) : (s.setFp v).mapOn = s.mapOn := rfl
@[simp] theorem State.setFp_hasWord (v : Addr) (a : Addr) : (s.setFp v).hasWord a = s.hasWord a := rfl

/-! ### setIon -/

@[simp] theorem State.setIon_acs (v : Bool) : (s.setIon v).acs = s.acs := rfl
@[simp] theorem State.setIon_c (v : Bool) : (s.setIon v).c = s.c := rfl
@[simp] theorem State.setIon_pc (v : Bool) : (s.setIon v).pc = s.pc := rfl
@[simp] theorem State.setIon_sp (v : Bool) : (s.setIon v).sp = s.sp := rfl
@[simp] theorem State.setIon_spWritten (v : Bool) : (s.setIon v).spWritten = s.spWritten := rfl
@[simp] theorem State.setIon_fp (v : Bool) : (s.setIon v).fp = s.fp := rfl
@[simp] theorem State.setIon_fpWritten (v : Bool) : (s.setIon v).fpWritten = s.fpWritten := rfl
@[simp] theorem State.setIon_ion (v : Bool) : (s.setIon v).ion = v := rfl
@[simp] theorem State.setIon_usermap (v : Bool) : (s.setIon v).usermap = s.usermap := rfl
@[simp] theorem State.setIon_stkpend (v : Bool) : (s.setIon v).stkpend = s.stkpend := rfl
@[simp] theorem State.setIon_mem (v : Bool) : (s.setIon v).mem = s.mem := rfl
@[simp] theorem State.setIon_params (v : Bool) : (s.setIon v).params = s.params := rfl
@[simp] theorem State.setIon_draws (v : Bool) : (s.setIon v).draws = s.draws := rfl
@[simp] theorem State.setIon_ac (v : Bool) (j : Acc) : (s.setIon v).ac j = s.ac j := rfl
@[simp] theorem State.setIon_mapOn (v : Bool) : (s.setIon v).mapOn = s.mapOn := rfl
@[simp] theorem State.setIon_hasWord (v : Bool) (a : Addr) : (s.setIon v).hasWord a = s.hasWord a := rfl

/-! ### setUsermap -/

@[simp] theorem State.setUsermap_acs (v : Bool) : (s.setUsermap v).acs = s.acs := rfl
@[simp] theorem State.setUsermap_c (v : Bool) : (s.setUsermap v).c = s.c := rfl
@[simp] theorem State.setUsermap_pc (v : Bool) : (s.setUsermap v).pc = s.pc := rfl
@[simp] theorem State.setUsermap_sp (v : Bool) : (s.setUsermap v).sp = s.sp := rfl
@[simp] theorem State.setUsermap_spWritten (v : Bool) : (s.setUsermap v).spWritten = s.spWritten := rfl
@[simp] theorem State.setUsermap_fp (v : Bool) : (s.setUsermap v).fp = s.fp := rfl
@[simp] theorem State.setUsermap_fpWritten (v : Bool) : (s.setUsermap v).fpWritten = s.fpWritten := rfl
@[simp] theorem State.setUsermap_ion (v : Bool) : (s.setUsermap v).ion = s.ion := rfl
@[simp] theorem State.setUsermap_usermap (v : Bool) : (s.setUsermap v).usermap = v := rfl
@[simp] theorem State.setUsermap_stkpend (v : Bool) : (s.setUsermap v).stkpend = s.stkpend := rfl
@[simp] theorem State.setUsermap_mem (v : Bool) : (s.setUsermap v).mem = s.mem := rfl
@[simp] theorem State.setUsermap_params (v : Bool) : (s.setUsermap v).params = s.params := rfl
@[simp] theorem State.setUsermap_draws (v : Bool) : (s.setUsermap v).draws = s.draws := rfl
@[simp] theorem State.setUsermap_ac (v : Bool) (j : Acc) : (s.setUsermap v).ac j = s.ac j := rfl
@[simp] theorem State.setUsermap_mapOn (v : Bool) : (s.setUsermap v).mapOn = (s.params.mapped && v) := rfl
@[simp] theorem State.setUsermap_hasWord (v : Bool) (a : Addr) : (s.setUsermap v).hasWord a = s.hasWord a := rfl

/-! ### setStkpend -/

@[simp] theorem State.setStkpend_acs (v : Bool) : (s.setStkpend v).acs = s.acs := rfl
@[simp] theorem State.setStkpend_c (v : Bool) : (s.setStkpend v).c = s.c := rfl
@[simp] theorem State.setStkpend_pc (v : Bool) : (s.setStkpend v).pc = s.pc := rfl
@[simp] theorem State.setStkpend_sp (v : Bool) : (s.setStkpend v).sp = s.sp := rfl
@[simp] theorem State.setStkpend_spWritten (v : Bool) : (s.setStkpend v).spWritten = s.spWritten := rfl
@[simp] theorem State.setStkpend_fp (v : Bool) : (s.setStkpend v).fp = s.fp := rfl
@[simp] theorem State.setStkpend_fpWritten (v : Bool) : (s.setStkpend v).fpWritten = s.fpWritten := rfl
@[simp] theorem State.setStkpend_ion (v : Bool) : (s.setStkpend v).ion = s.ion := rfl
@[simp] theorem State.setStkpend_usermap (v : Bool) : (s.setStkpend v).usermap = s.usermap := rfl
@[simp] theorem State.setStkpend_stkpend (v : Bool) : (s.setStkpend v).stkpend = v := rfl
@[simp] theorem State.setStkpend_mem (v : Bool) : (s.setStkpend v).mem = s.mem := rfl
@[simp] theorem State.setStkpend_params (v : Bool) : (s.setStkpend v).params = s.params := rfl
@[simp] theorem State.setStkpend_draws (v : Bool) : (s.setStkpend v).draws = s.draws := rfl
@[simp] theorem State.setStkpend_ac (v : Bool) (j : Acc) : (s.setStkpend v).ac j = s.ac j := rfl
@[simp] theorem State.setStkpend_mapOn (v : Bool) : (s.setStkpend v).mapOn = s.mapOn := rfl
@[simp] theorem State.setStkpend_hasWord (v : Bool) (a : Addr) : (s.setStkpend v).hasWord a = s.hasWord a := rfl

/-! ### setMem -/

@[simp] theorem State.setMem_acs (m : Memory) : (s.setMem m).acs = s.acs := rfl
@[simp] theorem State.setMem_c (m : Memory) : (s.setMem m).c = s.c := rfl
@[simp] theorem State.setMem_pc (m : Memory) : (s.setMem m).pc = s.pc := rfl
@[simp] theorem State.setMem_sp (m : Memory) : (s.setMem m).sp = s.sp := rfl
@[simp] theorem State.setMem_spWritten (m : Memory) : (s.setMem m).spWritten = s.spWritten := rfl
@[simp] theorem State.setMem_fp (m : Memory) : (s.setMem m).fp = s.fp := rfl
@[simp] theorem State.setMem_fpWritten (m : Memory) : (s.setMem m).fpWritten = s.fpWritten := rfl
@[simp] theorem State.setMem_ion (m : Memory) : (s.setMem m).ion = s.ion := rfl
@[simp] theorem State.setMem_usermap (m : Memory) : (s.setMem m).usermap = s.usermap := rfl
@[simp] theorem State.setMem_stkpend (m : Memory) : (s.setMem m).stkpend = s.stkpend := rfl
@[simp] theorem State.setMem_mem (m : Memory) : (s.setMem m).mem = m := rfl
@[simp] theorem State.setMem_params (m : Memory) : (s.setMem m).params = s.params := rfl
@[simp] theorem State.setMem_draws (m : Memory) : (s.setMem m).draws = s.draws := rfl
@[simp] theorem State.setMem_ac (m : Memory) (j : Acc) : (s.setMem m).ac j = s.ac j := rfl
@[simp] theorem State.setMem_mapOn (m : Memory) : (s.setMem m).mapOn = s.mapOn := rfl
@[simp] theorem State.setMem_hasWord (m : Memory) (a : Addr) : (s.setMem m).hasWord a = s.hasWord a := rfl

/-! ### setDraws -/

@[simp] theorem State.setDraws_acs (n : Nat) : (s.setDraws n).acs = s.acs := rfl
@[simp] theorem State.setDraws_c (n : Nat) : (s.setDraws n).c = s.c := rfl
@[simp] theorem State.setDraws_pc (n : Nat) : (s.setDraws n).pc = s.pc := rfl
@[simp] theorem State.setDraws_sp (n : Nat) : (s.setDraws n).sp = s.sp := rfl
@[simp] theorem State.setDraws_spWritten (n : Nat) : (s.setDraws n).spWritten = s.spWritten := rfl
@[simp] theorem State.setDraws_fp (n : Nat) : (s.setDraws n).fp = s.fp := rfl
@[simp] theorem State.setDraws_fpWritten (n : Nat) : (s.setDraws n).fpWritten = s.fpWritten := rfl
@[simp] theorem State.setDraws_ion (n : Nat) : (s.setDraws n).ion = s.ion := rfl
@[simp] theorem State.setDraws_usermap (n : Nat) : (s.setDraws n).usermap = s.usermap := rfl
@[simp] theorem State.setDraws_stkpend (n : Nat) : (s.setDraws n).stkpend = s.stkpend := rfl
@[simp] theorem State.setDraws_mem (n : Nat) : (s.setDraws n).mem = s.mem := rfl
@[simp] theorem State.setDraws_params (n : Nat) : (s.setDraws n).params = s.params := rfl
@[simp] theorem State.setDraws_draws (n : Nat) : (s.setDraws n).draws = n := rfl
@[simp] theorem State.setDraws_ac (n : Nat) (j : Acc) : (s.setDraws n).ac j = s.ac j := rfl
@[simp] theorem State.setDraws_mapOn (n : Nat) : (s.setDraws n).mapOn = s.mapOn := rfl
@[simp] theorem State.setDraws_hasWord (n : Nat) (a : Addr) : (s.setDraws n).hasWord a = s.hasWord a := rfl

/-! ### advance -/

@[simp] theorem State.advance_acs : (s.advance).acs = s.acs := rfl
@[simp] theorem State.advance_c : (s.advance).c = s.c := rfl
@[simp] theorem State.advance_pc : (s.advance).pc = s.pc + 1 := rfl
@[simp] theorem State.advance_sp : (s.advance).sp = s.sp := rfl
@[simp] theorem State.advance_spWritten : (s.advance).spWritten = s.spWritten := rfl
@[simp] theorem State.advance_fp : (s.advance).fp = s.fp := rfl
@[simp] theorem State.advance_fpWritten : (s.advance).fpWritten = s.fpWritten := rfl
@[simp] theorem State.advance_ion : (s.advance).ion = s.ion := rfl
@[simp] theorem State.advance_usermap : (s.advance).usermap = s.usermap := rfl
@[simp] theorem State.advance_stkpend : (s.advance).stkpend = s.stkpend := rfl
@[simp] theorem State.advance_mem : (s.advance).mem = s.mem := rfl
@[simp] theorem State.advance_params : (s.advance).params = s.params := rfl
@[simp] theorem State.advance_draws : (s.advance).draws = s.draws := rfl
@[simp] theorem State.advance_ac (j : Acc) : (s.advance).ac j = s.ac j := rfl
@[simp] theorem State.advance_mapOn : (s.advance).mapOn = s.mapOn := rfl
@[simp] theorem State.advance_hasWord (a : Addr) : (s.advance).hasWord a = s.hasWord a := rfl

end Sys2Proof.Machine
end

