-- ==== Sys2Proof/Laws/Memory.lean ====
section
/-! SUPPORT. Memory: every write keeps the canonical form, a read after a write gives what was written there and what was
there before elsewhere. -/

namespace Sys2Proof.Machine

/-! ### Cells -/

theorem lookupCell_of_forall_lt {cs : List Host.Cell} {a : Nat} (h : ∀ x ∈ cs, a < x.1) :
    lookupCell cs a = Memory.unlisted := by
  induction cs with
  | nil => rfl
  | cons c cs ih =>
    have hc := h c (by simp)
    have : c.1 ≠ a := by omega
    obtain ⟨k, w⟩ := c
    simp only [lookupCell]
    rw [if_neg this, ih fun x hx => h x (by simp [hx])]

/-- A write leaves every other byte alone, whatever the form of the list. -/
theorem lookupCell_storeCell_of_ne (cs : List Host.Cell) {a b : Nat} (v : Byte) (h : b ≠ a) :
    lookupCell (storeCell cs a v) b = lookupCell cs b := by
  have h' : a ≠ b := fun e => h e.symm
  induction cs with
  | nil => by_cases hv : v = Memory.unlisted <;> simp [storeCell, hv, lookupCell, h']
  | cons c cs ih =>
    obtain ⟨k, w⟩ := c
    by_cases h1 : a < k
    · by_cases hv : v = Memory.unlisted <;> simp [storeCell, h1, hv, lookupCell, h']
    · by_cases h2 : a = k
      · subst h2
        by_cases hv : v = Memory.unlisted <;> simp [storeCell, hv, lookupCell, h']
      · simp [storeCell, h1, h2, lookupCell, ih]

/-- A read gives what was last written, on a list in canonical form. -/
theorem lookupCell_storeCell_self {cs : List Host.Cell} (hs : cs.Pairwise fun x y => x.1 < y.1) (a : Nat) (v : Byte) :
    lookupCell (storeCell cs a v) a = v := by
  induction cs with
  | nil => by_cases hv : v = Memory.unlisted <;> simp [storeCell, hv, lookupCell]
  | cons c cs ih =>
    obtain ⟨k, w⟩ := c
    obtain ⟨hk, hcs⟩ := List.pairwise_cons.1 hs
    by_cases h1 : a < k
    · by_cases hv : v = Memory.unlisted
      · have hall : ∀ x ∈ (k, w) :: cs, a < x.1 := by
          intro x hx
          rcases List.mem_cons.1 hx with rfl | hx
          · exact h1
          · exact h1.trans (hk x hx)
        simpa [storeCell, h1, hv] using lookupCell_of_forall_lt hall
      · simp [storeCell, h1, hv, lookupCell]
    · by_cases h2 : a = k
      · subst h2
        by_cases hv : v = Memory.unlisted
        · simpa [storeCell, hv] using lookupCell_of_forall_lt hk
        · simp [storeCell, hv, lookupCell]
      · have : k ≠ a := fun e => h2 e.symm
        simp [storeCell, h1, h2, lookupCell, this, ih hcs]

/-- What a list holds after a write was there before, or is the byte written. -/
theorem mem_storeCell {cs : List Host.Cell} {a : Nat} {v : Byte} {x : Host.Cell} (h : x ∈ storeCell cs a v) :
    x ∈ cs ∨ (x = (a, v) ∧ v ≠ Memory.unlisted) := by
  induction cs with
  | nil => by_cases hv : v = Memory.unlisted <;> simp_all [storeCell]
  | cons c cs ih =>
    obtain ⟨k, w⟩ := c
    by_cases h1 : a < k
    · by_cases hv : v = Memory.unlisted
      · exact .inl (by simpa [storeCell, h1, hv] using h)
      · have h : x = (a, v) ∨ x ∈ (k, w) :: cs := by simpa [storeCell, h1, hv] using h
        exact h.elim (fun e => .inr ⟨e, hv⟩) .inl
    · by_cases h2 : a = k
      · by_cases hv : v = Memory.unlisted
        · have h : x ∈ cs := by simpa [storeCell, h1, h2, hv] using h
          exact .inl (List.mem_cons_of_mem _ h)
        · have h : x = (a, v) ∨ x ∈ cs := by simpa [storeCell, h1, h2, hv] using h
          exact h.elim (fun e => .inr ⟨e, hv⟩) fun h => .inl (List.mem_cons_of_mem _ h)
      · simp only [storeCell, h1, h2, if_false, List.mem_cons] at h ⊢
        rcases h with h | h
        · exact .inl (.inl h)
        · rcases ih h with h | h
          · exact .inl (.inr h)
          · exact .inr h

theorem storeCell_pairwise {cs : List Host.Cell} (hs : cs.Pairwise fun x y => x.1 < y.1) (a : Nat) (v : Byte) :
    (storeCell cs a v).Pairwise fun x y => x.1 < y.1 := by
  induction cs with
  | nil => by_cases hv : v = Memory.unlisted <;> simp [storeCell, hv]
  | cons c cs ih =>
    obtain ⟨k, w⟩ := c
    obtain ⟨hk, hcs⟩ := List.pairwise_cons.1 hs
    by_cases h1 : a < k
    · by_cases hv : v = Memory.unlisted
      · simpa [storeCell, h1, hv] using hs
      · simp only [storeCell, h1, hv, if_true, if_false]
        refine List.pairwise_cons.2 ⟨fun x hx => ?_, hs⟩
        rcases List.mem_cons.1 hx with rfl | hx
        · exact h1
        · exact h1.trans (hk x hx)
    · by_cases h2 : a = k
      · subst h2
        by_cases hv : v = Memory.unlisted
        · simpa [storeCell, hv] using hcs
        · simpa [storeCell, hv] using And.intro hk hcs
      · simp only [storeCell, h1, h2, if_false]
        refine List.pairwise_cons.2 ⟨fun x hx => ?_, ih hcs⟩
        rcases mem_storeCell hx with hx | ⟨rfl, -⟩
        · exact hk x hx
        · show k < a
          omega

/-! ### Bytes -/

theorem Memory.writeByte_wf {m : Memory} (h : m.wf) {a : Nat} (ha : a < 65536) (v : Byte) : (m.writeByte a v).wf := by
  refine ⟨storeCell_pairwise h.1 a v, fun x hx => ?_⟩
  rcases mem_storeCell hx with hx | ⟨rfl, hv⟩
  · exact h.2 x hx
  · exact ⟨hv, ha⟩

theorem Memory.readByte_writeByte_of_ne (m : Memory) {a b : Nat} (v : Byte) (h : b ≠ a) :
    (m.writeByte a v).readByte b = m.readByte b :=
  lookupCell_storeCell_of_ne m.cells v h

theorem Memory.readByte_writeByte_self {m : Memory} (h : m.wf) (a : Nat) (v : Byte) :
    (m.writeByte a v).readByte a = v :=
  lookupCell_storeCell_self h.1 a v

/-! ### Words -/

@[simp] theorem joinBytes_leftByte_rightByte (w : Word) : joinBytes (leftByte w) (rightByte w) = w := by
  have := w.isLt
  apply BitVec.eq_of_toNat_eq
  simp only [joinBytes, leftByte, rightByte, BitVec.toNat_ofNat]
  omega

@[simp] theorem leftByte_joinBytes (l r : Byte) : leftByte (joinBytes l r) = l := by
  have := l.isLt
  have := r.isLt
  apply BitVec.eq_of_toNat_eq
  simp only [joinBytes, leftByte, BitVec.toNat_ofNat]
  omega

@[simp] theorem rightByte_joinBytes (l r : Byte) : rightByte (joinBytes l r) = r := by
  have := l.isLt
  have := r.isLt
  apply BitVec.eq_of_toNat_eq
  simp only [joinBytes, rightByte, BitVec.toNat_ofNat]
  omega

theorem Memory.writeWord_wf {m : Memory} (h : m.wf) (a : Addr) (v : Word) : (m.writeWord a v).wf := by
  have ha : a.toNat < 32768 := a.isLt
  exact Memory.writeByte_wf (Memory.writeByte_wf h (by omega) _) (by omega) _

/-- A word write leaves every byte of every other word alone. -/
theorem Memory.readByte_writeWord_of_ne (m : Memory) {a : Addr} {b : Nat} (v : Word) (h : b / 2 ≠ a.toNat) :
    (m.writeWord a v).readByte b = m.readByte b := by
  unfold Memory.writeWord
  rw [Memory.readByte_writeByte_of_ne _ _ (by omega), Memory.readByte_writeByte_of_ne _ _ (by omega)]

theorem Memory.readWord_writeWord_of_ne (m : Memory) {a b : Addr} (v : Word) (h : b ≠ a) :
    (m.writeWord a v).readWord b = m.readWord b := by
  have h' : b.toNat ≠ a.toNat := fun e => h (BitVec.eq_of_toNat_eq e)
  unfold Memory.readWord
  rw [Memory.readByte_writeWord_of_ne _ _ (by omega), Memory.readByte_writeWord_of_ne _ _ (by omega)]

theorem Memory.readWord_writeWord_self {m : Memory} (h : m.wf) (a : Addr) (v : Word) :
    (m.writeWord a v).readWord a = v := by
  have ha : a.toNat < 32768 := a.isLt
  unfold Memory.readWord Memory.writeWord
  rw [Memory.readByte_writeByte_self (Memory.writeByte_wf h (by omega) _),
    Memory.readByte_writeByte_of_ne _ _ (by omega), Memory.readByte_writeByte_self h,
    joinBytes_leftByte_rightByte]

theorem Memory.readWord_writeWord {m : Memory} (h : m.wf) (a b : Addr) (v : Word) :
    (m.writeWord a v).readWord b = if b = a then v else m.readWord b := by
  split
  · next e => rw [e, Memory.readWord_writeWord_self h]
  · next e => exact Memory.readWord_writeWord_of_ne m v e

/-- A word write lists no byte outside the word. -/
theorem Memory.mem_writeWord {m : Memory} {a : Addr} {v : Word} {x : Host.Cell} (h : x ∈ (m.writeWord a v).cells) :
    x ∈ m.cells ∨ x.1 = 2 * a.toNat ∨ x.1 = 2 * a.toNat + 1 := by
  rcases mem_storeCell h with h | ⟨rfl, -⟩
  · rcases mem_storeCell h with h | ⟨rfl, -⟩
    · exact .inl h
    · exact .inr (.inl rfl)
  · exact .inr (.inr rfl)

/-! ### After reset -/

theorem reset_mem_wf : State.reset.mem.wf := by decide

end Sys2Proof.Machine
end

