-- ==== Sys2Proof/Laws/Ops.lean ====
section
/-! SUPPORT. One lemma for each shared operation, saying once everything it can do: when it answers a next state, and
which. -/

namespace Sys2Proof.Machine

/-! ### Sequencing -/

section
variable {α β : Type}

@[simp] theorem andThen_next (a : α) (f : α → Host.Outcome β Fault Refusal) : andThen (.next a) f = f a := rfl

@[simp] theorem andThen_fault (r : Fault) (f : α → Host.Outcome β Fault Refusal) : andThen (.fault r) f = .fault r := rfl

@[simp] theorem andThen_refused (r : Refusal) (f : α → Host.Outcome β Fault Refusal) :
    andThen (.refused r) f = .refused r := rfl

theorem andThen_eq_next {o : Host.Outcome α Fault Refusal} {f : α → Host.Outcome β Fault Refusal} {b : β} :
    andThen o f = .next b ↔ ∃ a, o = .next a ∧ f a = .next b := by
  cases o <;> simp

end

theorem gate_of_runs {feature : Bool} {s : State} (hf : feature = true) (hm : s.mapOn = false)
    (body : State → Host.Outcome State Fault Refusal) : gate feature s body = body s := by
  simp [gate, hf, hm]

theorem gate_eq_next {feature : Bool} {s t : State} {body : State → Host.Outcome State Fault Refusal} :
    gate feature s body = .next t ↔ feature = true ∧ s.mapOn = false ∧ body s = .next t := by
  unfold gate
  cases feature <;> cases s.mapOn <;> simp

/-! ### Memory accesses -/

theorem memRead_of {s : State} {a : Addr} (hm : s.mapOn = false) (ha : s.hasWord a = true) :
    memRead a s = .next (s.mem.readWord a) := by
  simp [memRead, hm, ha]

theorem memRead_eq_next {s : State} {a : Addr} {v : Word} :
    memRead a s = .next v ↔ s.mapOn = false ∧ s.hasWord a = true ∧ v = s.mem.readWord a := by
  unfold memRead
  cases s.mapOn <;> cases s.hasWord a <;> simp [eq_comm]

theorem memWrite_of {s : State} {a : Addr} (v : Word) (hm : s.mapOn = false) (ha : s.hasWord a = true) :
    memWrite a v s = .next (s.setMem (s.mem.writeWord a v)) := by
  simp [memWrite, hm, ha]

theorem memWrite_eq_next {s t : State} {a : Addr} {v : Word} :
    memWrite a v s = .next t ↔ s.mapOn = false ∧ s.hasWord a = true ∧ t = s.setMem (s.mem.writeWord a v) := by
  unfold memWrite
  cases s.mapOn <;> cases s.hasWord a <;> simp [eq_comm]

theorem fetch_of {s : State} (h : s.hasWord s.pc = true) : fetch s = .next (s.mem.readWord s.pc) := by
  simp [fetch, h]

theorem fetch_eq_next {s : State} {v : Word} :
    fetch s = .next v ↔ s.hasWord s.pc = true ∧ v = s.mem.readWord s.pc := by
  unfold fetch
  cases s.hasWord s.pc <;> simp [eq_comm]

/-! ### Events -/

theorem jumpIndirect_eq_next {loc : Addr} {s t : State} :
    jumpIndirect loc s = .next t ↔
      s.mapOn = false ∧ s.hasWord loc = true ∧ topBit (s.mem.readWord loc) = false ∧
        t = s.setPc (low15 (s.mem.readWord loc)) := by
  unfold jumpIndirect
  rw [andThen_eq_next]
  constructor
  · rintro ⟨v, hv, ht⟩
    obtain ⟨hm, hl, rfl⟩ := memRead_eq_next.1 hv
    cases hb : topBit (s.mem.readWord loc) <;> simp [hb, eq_comm] at ht
    exact ⟨hm, hl, rfl, ht⟩
  · rintro ⟨hm, hl, hb, rfl⟩
    exact ⟨_, memRead_of hm hl, by simp [hb]⟩

/-- Everything taking an exception can do, when its two locations differ: the save word is written, PC is loaded from the
vector word. -/
theorem takeEvent_eq_next {save vector a : Addr} (h : vector ≠ save) {s t : State} :
    takeEvent save vector a s = .next t ↔
      s.mapOn = false ∧ s.hasWord save = true ∧ s.hasWord vector = true ∧ topBit (s.mem.readWord vector) = false ∧
        t = (s.setMem (s.mem.writeWord save (zext16 a))).setPc (low15 (s.mem.readWord vector)) := by
  unfold takeEvent
  rw [andThen_eq_next]
  constructor
  · rintro ⟨u, hu, ht⟩
    obtain ⟨hm, hs, rfl⟩ := memWrite_eq_next.1 hu
    obtain ⟨-, hv, hb, rfl⟩ := jumpIndirect_eq_next.1 ht
    simp only [State.setMem_mem, Memory.readWord_writeWord_of_ne _ _ h, State.setMem_hasWord] at hb hv
    exact ⟨hm, hs, hv, hb, by simp [Memory.readWord_writeWord_of_ne _ _ h]⟩
  · rintro ⟨hm, hs, hv, hb, rfl⟩
    refine ⟨_, memWrite_of _ hm hs, ?_⟩
    rw [jumpIndirect_eq_next]
    simp [Memory.readWord_writeWord_of_ne _ _ h, hm, hv, hb]

/-- Stack fault entry, when it completes. -/
theorem raiseStackFault_of {s : State} (a : Addr) (hm : s.mapOn = false) (h0 : s.hasWord 0 = true)
    (h3 : s.hasWord 3 = true) :
    raiseStackFault a s =
      if topBit (s.mem.readWord 3) then .refused .indirectChain
      else .next (((s.setIon false).setMem (s.mem.writeWord 0 (zext16 a))).setPc (low15 (s.mem.readWord 3))) := by
  simp only [raiseStackFault, takeEvent, stackFaultSave, stackFaultVector]
  rw [memWrite_of _ (s := s.setIon false) hm h0, andThen_next, jumpIndirect,
    memRead_of (s := (s.setIon false).setMem _) hm h3, andThen_next]
  simp only [State.setMem_mem, State.setIon_mem, Memory.readWord_writeWord_of_ne _ _ (show (3 : Addr) ≠ 0 by decide)]

/-- An event whose save location or vector does not exist is refused. -/
theorem takeEvent_of_absent {save vector a : Addr} {s : State} (hm : s.mapOn = false)
    (h : (s.hasWord save && s.hasWord vector) = false) : takeEvent save vector a s = .refused .noSuchMemory := by
  simp only [takeEvent, memWrite, jumpIndirect, memRead]
  by_cases h0 : s.hasWord save = true
  · have h3 : s.hasWord vector = false := by simpa only [h0, Bool.true_and] using h
    simp [hm, h0, h3]
  · simp [hm, h0]

/-- Stack fault entry, when one of its two words does not exist. -/
theorem raiseStackFault_of_absent {s : State} (a : Addr) (hm : s.mapOn = false)
    (h : (s.hasWord 0 && s.hasWord 3) = false) : raiseStackFault a s = .refused .noSuchMemory :=
  takeEvent_of_absent (s := s.setIon false) hm h

/-- An event in user mode is refused. -/
theorem takeEvent_of_mapOn {save vector a : Addr} {s : State} (hm : s.mapOn = true) :
    takeEvent save vector a s = .refused .userMapEnabled := by
  simp [takeEvent, memWrite, hm]

/-- Stack fault entry in user mode. -/
theorem raiseStackFault_of_mapOn {s : State} (a : Addr) (hm : s.mapOn = true) :
    raiseStackFault a s = .refused .userMapEnabled :=
  takeEvent_of_mapOn (s := s.setIon false) hm

theorem raiseStackFault_eq_next {a : Addr} {s t : State} :
    raiseStackFault a s = .next t ↔
      s.mapOn = false ∧ s.hasWord 0 = true ∧ s.hasWord 3 = true ∧ topBit (s.mem.readWord 3) = false ∧
        t = ((s.setIon false).setMem (s.mem.writeWord 0 (zext16 a))).setPc (low15 (s.mem.readWord 3)) := by
  unfold raiseStackFault
  rw [takeEvent_eq_next (by decide)]
  simp [stackFaultSave, stackFaultVector]

theorem disableUserMap_mapOn (s : State) : (disableUserMap s).mapOn = false := by
  unfold disableUserMap
  split <;> simp_all

/-- Turning the user map off changes USERMAP alone, and leaves it off. -/
theorem disableUserMap_eq (s : State) : disableUserMap s = s.setUsermap (s.usermap && !s.params.mapped) := by
  unfold disableUserMap State.mapOn
  cases hm : s.params.mapped <;> cases hu : s.usermap <;> simp [State.setUsermap, ← hu]

theorem raiseInstructionTrap_eq_next {a : Addr} {s t : State} :
    raiseInstructionTrap a s = .next t ↔
      s.hasWord 38 = true ∧ s.hasWord 39 = true ∧ topBit (s.mem.readWord 39) = false ∧
        t = ((s.setUsermap (s.usermap && !s.params.mapped)).setMem (s.mem.writeWord 38 (zext16 a))).setPc
              (low15 (s.mem.readWord 39)) := by
  unfold raiseInstructionTrap
  rw [takeEvent_eq_next (by decide), disableUserMap_mapOn, disableUserMap_eq]
  simp [trapSave, trapVector]

/-! ### The stack -/

theorem push_of_absent {w : Work} (v : Word) (hs : w.st.spWritten = true) (hm : w.st.mapOn = false)
    (hw : w.st.hasWord (w.st.sp + 1) = false) : push v w = .refused .noSuchMemory := by
  simp only [push, memWrite, hs, hm, hw, if_true, Bool.false_eq_true, if_false, andThen_refused]

theorem pop_of_absent {w : Work} (hs : w.st.spWritten = true) (hm : w.st.mapOn = false)
    (hw : w.st.hasWord w.st.sp = false) : pop w = .refused .noSuchMemory := by
  simp [pop, memRead, hs, hm, hw]

theorem push_of {w : Work} (v : Word) (hs : w.st.spWritten = true) (hm : w.st.mapOn = false)
    (hw : w.st.hasWord (w.st.sp + 1) = true) :
    push v w = .next { st := (w.st.setMem (w.st.mem.writeWord (w.st.sp + 1) v)).setSp (w.st.sp + 1)
                       crossed := w.crossed || pageStart w.st.params (w.st.sp + 1) } := by
  simp only [push, hs, if_true, memWrite_of v hm hw, andThen_next]

theorem push_eq_next {v : Word} {w w' : Work} :
    push v w = .next w' ↔
      w.st.spWritten = true ∧ w.st.mapOn = false ∧ w.st.hasWord (w.st.sp + 1) = true ∧
        w' = { st := (w.st.setMem (w.st.mem.writeWord (w.st.sp + 1) v)).setSp (w.st.sp + 1)
               crossed := w.crossed || pageStart w.st.params (w.st.sp + 1) } := by
  unfold push
  cases hs : w.st.spWritten with
  | false => simp
  | true =>
    simp only [if_true, andThen_eq_next, memWrite_eq_next]
    constructor
    · rintro ⟨u, ⟨hm, hw, rfl⟩, h⟩
      injection h with h
      exact ⟨trivial, hm, hw, h.symm⟩
    · rintro ⟨-, hm, hw, rfl⟩
      exact ⟨_, ⟨hm, hw, rfl⟩, rfl⟩

/-- Pushes one of whose words does not exist are refused. -/
theorem pushAll_of_absent (vs : List Word) : ∀ w : Work, w.st.spWritten = true → w.st.mapOn = false →
    (∃ k, k < vs.length ∧ w.st.hasWord (w.st.sp + 1 + BitVec.ofNat 15 k) = false) →
    pushAll vs w = .refused .noSuchMemory := by
  induction vs with
  | nil => rintro w - - ⟨k, hk, -⟩; exact absurd hk (Nat.not_lt_zero k)
  | cons v vs ih =>
    rintro w hs hm ⟨k, hk, h⟩
    rw [pushAll]
    cases h0 : w.st.hasWord (w.st.sp + 1) with
    | false => rw [push_of_absent v hs hm h0, andThen_refused]
    | true =>
      rw [push_of v hs hm h0, andThen_next]
      cases k with
      | zero => rw [show w.st.sp + 1 + BitVec.ofNat 15 0 = w.st.sp + 1 from BitVec.add_zero _, h0] at h; cases h
      | succ j =>
        refine ih _ rfl hm ⟨j, Nat.lt_of_succ_lt_succ hk, ?_⟩
        rw [← h, Nat.add_comm j 1, BitVec.ofNat_add, ← BitVec.add_assoc]
        rfl

theorem pop_of {w : Work} (hs : w.st.spWritten = true) (hm : w.st.mapOn = false)
    (hw : w.st.hasWord w.st.sp = true) :
    pop w = .next (w.st.mem.readWord w.st.sp,
      { st := w.st.setSp (w.st.sp - 1), crossed := w.crossed || pageStart w.st.params w.st.sp }) := by
  simp only [pop, hs, if_true, memRead_of hm hw, andThen_next]

theorem pop_eq_next {w w' : Work} {v : Word} :
    pop w = .next (v, w') ↔
      w.st.spWritten = true ∧ w.st.mapOn = false ∧ w.st.hasWord w.st.sp = true ∧ v = w.st.mem.readWord w.st.sp ∧
        w' = { st := w.st.setSp (w.st.sp - 1), crossed := w.crossed || pageStart w.st.params w.st.sp } := by
  unfold pop
  cases hs : w.st.spWritten with
  | false => simp
  | true =>
    simp only [if_true, andThen_eq_next, memRead_eq_next]
    constructor
    · rintro ⟨u, ⟨hm, hw, rfl⟩, h⟩
      injection h with h
      injection h with h1 h2
      exact ⟨trivial, hm, hw, h1.symm, h2.symm⟩
    · rintro ⟨-, hm, hw, rfl, rfl⟩
      exact ⟨_, ⟨hm, hw, rfl⟩, rfl⟩

theorem pushAll_cons_eq_next {v : Word} {vs : List Word} {w w' : Work} :
    pushAll (v :: vs) w = .next w' ↔ ∃ w1, push v w = .next w1 ∧ pushAll vs w1 = .next w' := by
  simp only [pushAll, andThen_eq_next]

@[simp] theorem pushAll_nil (w : Work) : pushAll [] w = .next w := rfl

/-- Everything the end of a stack instruction can do. -/
theorem stackCheck_eq_next {a : Addr} {w : Work} {t : State} :
    stackCheck a w = .next t ↔
      (w.crossed = false ∧ t = w.st) ∨
      (w.crossed = true ∧ w.st.ion = true ∧ raiseStackFault a w.st = .next t) ∨
      (w.crossed = true ∧ w.st.ion = false ∧ w.st.params.stkFaultLatch = true ∧ t = w.st.setStkpend true) ∨
      (w.crossed = true ∧ w.st.ion = false ∧ w.st.params.stkFaultLatch = false ∧ t = w.st) := by
  unfold stackCheck
  cases w.crossed <;> cases w.st.ion <;> cases w.st.params.stkFaultLatch <;> simp [eq_comm]

theorem pageStart_iff {p : Params} {a : Addr} : pageStart p a = true ↔ a.toNat % p.pageWords = 0 := by
  simp [pageStart]

/-! ### A step -/

/-- Everything a step that answers a next state can be: a remembered stack fault, or one instruction. -/
theorem step_eq_next {s t : State} :
    step s = .next t ↔
      (s.latchedFaultDue = true ∧ takeLatchedFault s = .next t) ∨
      (s.latchedFaultDue = false ∧ s.hasWord s.pc = true ∧
        ∃ i, decode (s.mem.readWord s.pc) = .instr i ∧ exec i s = .next t) := by
  unfold step
  cases hl : s.latchedFaultDue with
  | true => simp
  | false =>
    simp only [if_false, andThen_eq_next, fetch_eq_next, Bool.false_eq_true, false_and, false_or, true_and]
    constructor
    · rintro ⟨w, ⟨hw, rfl⟩, h⟩
      cases hd : decode (s.mem.readWord s.pc) <;> simp only [hd, execDecoded, reduceCtorEq] at h
      exact ⟨hw, _, rfl, h⟩
    · rintro ⟨hw, i, hd, h⟩
      exact ⟨_, ⟨hw, rfl⟩, by simpa [hd, execDecoded] using h⟩

theorem takeLatchedFault_eq_next {s t : State} :
    takeLatchedFault s = .next t ↔
      s.mapOn = false ∧ s.hasWord 0 = true ∧ s.hasWord 3 = true ∧ topBit (s.mem.readWord 3) = false ∧
        t = ((((s.setDraws (s.draws + 1)).setStkpend false).setIon false).setMem
              (s.mem.writeWord 0 (zext16 (Config.freeAddr s.draws)))).setPc (low15 (s.mem.readWord 3)) := by
  unfold takeLatchedFault
  rw [raiseStackFault_eq_next]
  simp [drawAddr]

end Sys2Proof.Machine
end

