-- ==== Sys2Proof/Laws/Exec.lean ====
section
/-! SUPPORT. One lemma for each meaning: exactly when it answers a next state, and which. A stack instruction's ends in
`stackCheck` of the state in which all its writes are done, which `stackCheck_eq_next` takes apart. -/

namespace Sys2Proof.Machine

variable {s t : State}

theorem execMul_eq_next :
    execMul s = .next t ↔ s.params.hasMulDiv = true ∧ s.mapOn = false ∧
      t = (s.advance.setAc .ac0 (mulResult s.params.mulMode (s.ac .ac0) (s.ac .ac1) (s.ac .ac2)).1).setAc .ac1
            (mulResult s.params.mulMode (s.ac .ac0) (s.ac .ac1) (s.ac .ac2)).2 := by
  simp only [execMul, gate_eq_next, Host.Outcome.next.injEq, eq_comm (a := t)]

theorem execDiv_eq_next :
    execDiv s = .next t ↔ s.params.hasMulDiv = true ∧ s.mapOn = false ∧
      (((s.ac .ac0).toNat < (s.ac .ac2).toNat ∧
          t = setDivCarry ((s.advance.setAc .ac1
                (BitVec.ofNat 16 (((s.ac .ac0).toNat * 65536 + (s.ac .ac1).toNat) / (s.ac .ac2).toNat))).setAc .ac0
                (BitVec.ofNat 16 (((s.ac .ac0).toNat * 65536 + (s.ac .ac1).toNat) % (s.ac .ac2).toNat)))) ∨
        ((s.ac .ac2).toNat ≤ (s.ac .ac0).toNat ∧ divOverflowed s.advance = .next t)) := by
  simp only [execDiv, gate_eq_next]
  by_cases h : (s.ac .ac0).toNat < (s.ac .ac2).toNat
  · simp [h, Nat.not_le.2 h, eq_comm (a := t)]
  · simp [h, Nat.not_lt.1 h]

theorem execMtsp_eq_next {ac : Acc} :
    execMtsp ac s = .next t ↔ s.params.hasStack = true ∧ s.mapOn = false ∧
      t = s.advance.setSp (low15 (s.ac ac)) := by
  simp only [execMtsp, gate_eq_next, Host.Outcome.next.injEq, eq_comm (a := t)]

theorem execMtfp_eq_next {ac : Acc} :
    execMtfp ac s = .next t ↔ s.params.hasStack = true ∧ s.mapOn = false ∧
      t = s.advance.setFp (low15 (s.ac ac)) := by
  simp only [execMtfp, gate_eq_next, Host.Outcome.next.injEq, eq_comm (a := t)]

theorem execMfsp_eq_next {ac : Acc} :
    execMfsp ac s = .next t ↔ s.params.hasStack = true ∧ s.mapOn = false ∧ s.spWritten = true ∧
      t = s.advance.setAc ac (zext16 s.sp) := by
  simp only [execMfsp, gate_eq_next]
  cases s.spWritten <;> simp [eq_comm (a := t)]

theorem execMffp_eq_next {ac : Acc} :
    execMffp ac s = .next t ↔ s.params.hasStack = true ∧ s.mapOn = false ∧ s.fpWritten = true ∧
      t = s.advance.setAc ac (zext16 s.fp) := by
  simp only [execMffp, gate_eq_next]
  cases s.fpWritten <;> simp [eq_comm (a := t)]

theorem execPsha_eq_next {ac : Acc} :
    execPsha ac s = .next t ↔ s.params.hasStack = true ∧ s.mapOn = false ∧ s.spWritten = true ∧
      s.hasWord (s.sp + 1) = true ∧
      stackCheck s.pc
        { st := (s.advance.setMem (s.mem.writeWord (s.sp + 1) (s.ac ac))).setSp (s.sp + 1)
          crossed := pageStart s.params (s.sp + 1) } = .next t := by
  simp only [execPsha, gate_eq_next, andThen_eq_next, push_eq_next]
  constructor
  · rintro ⟨hf, hm, w, ⟨hs, -, hw, rfl⟩, h⟩
    exact ⟨hf, hm, hs, hw, by simpa [beginWork] using h⟩
  · rintro ⟨hf, hm, hs, hw, h⟩
    exact ⟨hf, hm, _, ⟨hs, hm, hw, rfl⟩, by simpa [beginWork] using h⟩

theorem execPopa_eq_next {ac : Acc} :
    execPopa ac s = .next t ↔ s.params.hasStack = true ∧ s.mapOn = false ∧ s.spWritten = true ∧
      s.hasWord s.sp = true ∧
      stackCheck s.pc
        { st := (s.advance.setSp (s.sp - 1)).setAc ac (s.mem.readWord s.sp)
          crossed := pageStart s.params s.sp } = .next t := by
  simp only [execPopa, gate_eq_next, andThen_eq_next, Prod.exists, pop_eq_next]
  constructor
  · rintro ⟨hf, hm, v, w, ⟨hs, -, hw, rfl, rfl⟩, h⟩
    exact ⟨hf, hm, hs, hw, by simpa [beginWork] using h⟩
  · rintro ⟨hf, hm, hs, hw, h⟩
    exact ⟨hf, hm, _, _, ⟨hs, hm, hw, rfl, rfl⟩, by simpa [beginWork] using h⟩

/-- PSHA, once its word exists: it ends in the page crossing rule. -/
theorem execPsha_of {ac : Acc} (hf : s.params.hasStack = true) (hm : s.mapOn = false) (hs : s.spWritten = true)
    (hw : s.hasWord (s.sp + 1) = true) :
    execPsha ac s = stackCheck s.pc
      { st := (s.advance.setMem (s.mem.writeWord (s.sp + 1) (s.ac ac))).setSp (s.sp + 1)
        crossed := pageStart s.params (s.sp + 1) } := by
  rw [execPsha, gate_of_runs hf hm, push_of (w := beginWork s.advance) _ hs hm hw, andThen_next]
  rfl

/-- POPA, once its word exists: it ends in the page crossing rule. -/
theorem execPopa_of {ac : Acc} (hf : s.params.hasStack = true) (hm : s.mapOn = false) (hs : s.spWritten = true)
    (hw : s.hasWord s.sp = true) :
    execPopa ac s = stackCheck s.pc
      { st := (s.advance.setSp (s.sp - 1)).setAc ac (s.mem.readWord s.sp)
        crossed := pageStart s.params s.sp } := by
  rw [execPopa, gate_of_runs hf hm, pop_of (w := beginWork s.advance) hs hm hw, andThen_next]
  rfl

/-- A push on top of a push, as far as SP and memory go. -/
theorem setMem_setSp_twice (s : State) (m m' : Memory) (a a' : Addr) :
    (((s.setMem m).setSp a).setMem m').setSp a' = (s.setMem m').setSp a' := rfl

theorem setSp_twice (s : State) (a a' : Addr) : (s.setSp a).setSp a' = s.setSp a' := rfl

/-- Five pushes, in one piece: which words must exist, what is stored where, when a page was crossed. -/
theorem pushAll_five_eq_next {a b c d e : Word} {w w' : Work} :
    pushAll [a, b, c, d, e] w = .next w' ↔ w.st.spWritten = true ∧ w.st.mapOn = false ∧
      (w.st.hasWord (w.st.sp + 1) = true ∧ w.st.hasWord (w.st.sp + 2) = true ∧ w.st.hasWord (w.st.sp + 3) = true ∧
        w.st.hasWord (w.st.sp + 4) = true ∧ w.st.hasWord (w.st.sp + 5) = true) ∧
      w' = { st := (w.st.setMem (((((w.st.mem.writeWord (w.st.sp + 1) a).writeWord (w.st.sp + 2) b).writeWord
                    (w.st.sp + 3) c).writeWord (w.st.sp + 4) d).writeWord (w.st.sp + 5) e)).setSp (w.st.sp + 5)
             crossed := w.crossed || pageStart w.st.params (w.st.sp + 1) || pageStart w.st.params (w.st.sp + 2) ||
               pageStart w.st.params (w.st.sp + 3) || pageStart w.st.params (w.st.sp + 4) ||
               pageStart w.st.params (w.st.sp + 5) } := by
  have h2 : w.st.sp + 1 + 1 = w.st.sp + 2 := by rw [BitVec.add_assoc]; rfl
  have h3 : w.st.sp + 2 + 1 = w.st.sp + 3 := by rw [BitVec.add_assoc]; rfl
  have h4 : w.st.sp + 3 + 1 = w.st.sp + 4 := by rw [BitVec.add_assoc]; rfl
  have h5 : w.st.sp + 4 + 1 = w.st.sp + 5 := by rw [BitVec.add_assoc]; rfl
  simp only [pushAll_cons_eq_next, push_eq_next, pushAll_nil, Host.Outcome.next.injEq]
  constructor
  · rintro ⟨w1, ⟨hs, hm, g1, rfl⟩, w2, ⟨-, -, g2, rfl⟩, w3, ⟨-, -, g3, rfl⟩, w4, ⟨-, -, g4, rfl⟩, w5,
      ⟨-, -, g5, rfl⟩, rfl⟩
    simp only [State.setSp_sp, State.setMem_hasWord, State.setSp_hasWord, h2, h3, h4, h5] at g2 g3 g4 g5
    refine ⟨hs, hm, ⟨g1, g2, g3, g4, g5⟩, ?_⟩
    simp only [State.setSp_sp, State.setSp_mem, State.setMem_mem, State.setSp_params, State.setMem_params, h2, h3, h4,
      h5, setMem_setSp_twice]
  · rintro ⟨hs, hm, ⟨g1, g2, g3, g4, g5⟩, rfl⟩
    refine ⟨_, ⟨hs, hm, g1, rfl⟩, ?_⟩
    refine ⟨_, ⟨State.setSp_spWritten _ _, ?_, ?_, rfl⟩, ?_⟩
    · simpa only [State.setSp_mapOn, State.setMem_mapOn] using hm
    · simpa only [State.setSp_sp, State.setSp_hasWord, State.setMem_hasWord, h2] using g2
    refine ⟨_, ⟨State.setSp_spWritten _ _, ?_, ?_, rfl⟩, ?_⟩
    · simpa only [State.setSp_mapOn, State.setMem_mapOn] using hm
    · simpa only [State.setSp_sp, State.setSp_hasWord, State.setMem_hasWord, h2, h3] using g3
    refine ⟨_, ⟨State.setSp_spWritten _ _, ?_, ?_, rfl⟩, ?_⟩
    · simpa only [State.setSp_mapOn, State.setMem_mapOn] using hm
    · simpa only [State.setSp_sp, State.setSp_hasWord, State.setMem_hasWord, h2, h3, h4] using g4
    refine ⟨_, ⟨State.setSp_spWritten _ _, ?_, ?_, rfl⟩, ?_⟩
    · simpa only [State.setSp_mapOn, State.setMem_mapOn] using hm
    · simpa only [State.setSp_sp, State.setSp_hasWord, State.setMem_hasWord, h2, h3, h4, h5] using g5
    simp only [State.setSp_sp, State.setSp_mem, State.setMem_mem, State.setSp_params, State.setMem_params, h2, h3, h4,
      h5, setMem_setSp_twice]

theorem execSav_eq_next :
    execSav s = .next t ↔ s.params.hasStack = true ∧ s.mapOn = false ∧ s.spWritten = true ∧ s.fpWritten = true ∧
      (s.hasWord (s.sp + 1) = true ∧ s.hasWord (s.sp + 2) = true ∧ s.hasWord (s.sp + 3) = true ∧
        s.hasWord (s.sp + 4) = true ∧ s.hasWord (s.sp + 5) = true) ∧
      stackCheck s.pc
        { st := loadFrame ((s.advance.setMem (((((s.mem.writeWord (s.sp + 1) (s.ac .ac0)).writeWord (s.sp + 2)
                  (s.ac .ac1)).writeWord (s.sp + 3) (s.ac .ac2)).writeWord (s.sp + 4) (zext16 s.fp)).writeWord (s.sp + 5)
                  (packCarry s.c (low15 (s.ac .ac3))))).setSp (s.sp + 5))
          crossed := pageStart s.params (s.sp + 1) || pageStart s.params (s.sp + 2) || pageStart s.params (s.sp + 3) ||
            pageStart s.params (s.sp + 4) || pageStart s.params (s.sp + 5) } = .next t := by
  simp only [execSav, gate_eq_next]
  cases hs : s.spWritten with
  | false => simp
  | true =>
    cases hf : s.fpWritten with
    | false => simp
    | true =>
      simp only [if_true, returnBlock, andThen_eq_next, pushAll_five_eq_next]
      constructor
      · rintro ⟨hf, hm, w, ⟨-, -, hw, rfl⟩, h⟩
        exact ⟨hf, hm, trivial, trivial, hw, by simpa [beginWork] using h⟩
      · rintro ⟨hf, hm, -, -, hw, h⟩
        exact ⟨hf, hm, _, ⟨hs, hm, hw, rfl⟩, by simpa [beginWork] using h⟩

/-- SAV, once its five words exist: it ends in the page crossing rule. -/
theorem execSav_of (hf : s.params.hasStack = true) (hm : s.mapOn = false) (hs : s.spWritten = true)
    (hp : s.fpWritten = true)
    (hw : s.hasWord (s.sp + 1) = true ∧ s.hasWord (s.sp + 2) = true ∧ s.hasWord (s.sp + 3) = true ∧
      s.hasWord (s.sp + 4) = true ∧ s.hasWord (s.sp + 5) = true) :
    execSav s = stackCheck s.pc
      { st := loadFrame ((s.advance.setMem (((((s.mem.writeWord (s.sp + 1) (s.ac .ac0)).writeWord (s.sp + 2)
                (s.ac .ac1)).writeWord (s.sp + 3) (s.ac .ac2)).writeWord (s.sp + 4) (zext16 s.fp)).writeWord (s.sp + 5)
                (packCarry s.c (low15 (s.ac .ac3))))).setSp (s.sp + 5))
        crossed := pageStart s.params (s.sp + 1) || pageStart s.params (s.sp + 2) || pageStart s.params (s.sp + 3) ||
          pageStart s.params (s.sp + 4) || pageStart s.params (s.sp + 5) } := by
  have h := (pushAll_five_eq_next (a := s.ac .ac0) (b := s.ac .ac1) (c := s.ac .ac2) (d := zext16 s.fp)
    (e := packCarry s.c (low15 (s.ac .ac3))) (w := beginWork s.advance)).2 ⟨hs, hm, hw, rfl⟩
  simp only [execSav, gate_of_runs hf hm, hs, hp, if_true, returnBlock, h, andThen_next]
  rfl

theorem reloadSp_eq_next :
    reloadSp s = .next t ↔
      (s.params.retSpFromFp = false ∧ t = s) ∨
      (s.params.retSpFromFp = true ∧ s.fpWritten = true ∧ t = s.setSp s.fp) := by
  unfold reloadSp
  cases s.params.retSpFromFp <;> cases s.fpWritten <;> simp [eq_comm]

theorem popBlock_eq_next {a : Addr} :
    popBlock a s = .next t ↔ s.spWritten = true ∧ s.mapOn = false ∧
      (s.hasWord s.sp = true ∧ s.hasWord (s.sp - 1) = true ∧ s.hasWord (s.sp - 2) = true ∧
        s.hasWord (s.sp - 3) = true ∧ s.hasWord (s.sp - 4) = true) ∧
      stackCheck a
        { st := restoreBlock (s.mem.readWord s.sp) (s.mem.readWord (s.sp - 1)) (s.mem.readWord (s.sp - 2))
                  (s.mem.readWord (s.sp - 3)) (s.mem.readWord (s.sp - 4)) (s.setSp (s.sp - 5))
          crossed := pageStart s.params s.sp || pageStart s.params (s.sp - 1) || pageStart s.params (s.sp - 2) ||
            pageStart s.params (s.sp - 3) || pageStart s.params (s.sp - 4) } = .next t := by
  have sub (k : Addr) : s.sp - k - 1 = s.sp - (k + 1) := by
    rw [BitVec.sub_sub]
  have h2 : s.sp - 1 - 1 = s.sp - 2 := sub 1
  have h3 : s.sp - 2 - 1 = s.sp - 3 := sub 2
  have h4 : s.sp - 3 - 1 = s.sp - 4 := sub 3
  have h5 : s.sp - 4 - 1 = s.sp - 5 := sub 4
  simp only [popBlock, beginWork, andThen_eq_next, Prod.exists, pop_eq_next]
  constructor
  · rintro ⟨v5, w5, ⟨hs, hm, g5, rfl, rfl⟩, v4, w4, ⟨-, -, g4, rfl, rfl⟩, v3, w3, ⟨-, -, g3, rfl, rfl⟩, v2, w2,
      ⟨-, -, g2, rfl, rfl⟩, v1, w1, ⟨-, -, g1, rfl, rfl⟩, h⟩
    simp only [State.setSp_sp, State.setSp_hasWord, h2, h3, h4] at g1 g2 g3 g4
    refine ⟨hs, hm, ⟨g5, g4, g3, g2, g1⟩, ?_⟩
    simpa only [State.setSp_sp, State.setSp_mem, State.setSp_params, Bool.false_or, h2, h3, h4, h5, setSp_twice] using h
  · rintro ⟨hs, hm, ⟨g5, g4, g3, g2, g1⟩, h⟩
    refine ⟨_, _, ⟨hs, hm, g5, rfl, rfl⟩, _, _, ⟨rfl, hm, ?_, rfl, rfl⟩, _, _, ⟨rfl, hm, ?_, rfl, rfl⟩, _, _,
      ⟨rfl, hm, ?_, rfl, rfl⟩, _, _, ⟨rfl, hm, ?_, rfl, rfl⟩, ?_⟩ <;>
      simp only [State.setSp_sp, State.setSp_mem, State.setSp_params, State.setSp_hasWord, Bool.false_or, h2, h3, h4, h5,
        g1, g2, g3, g4, setSp_twice, h]

/-- The popping half of RET, once its five words exist: it ends in the page crossing rule. -/
theorem popBlock_of {a : Addr} (hs : s.spWritten = true) (hm : s.mapOn = false)
    (hw : s.hasWord s.sp = true ∧ s.hasWord (s.sp - 1) = true ∧ s.hasWord (s.sp - 2) = true ∧
      s.hasWord (s.sp - 3) = true ∧ s.hasWord (s.sp - 4) = true) :
    popBlock a s = stackCheck a
      { st := restoreBlock (s.mem.readWord s.sp) (s.mem.readWord (s.sp - 1)) (s.mem.readWord (s.sp - 2))
                (s.mem.readWord (s.sp - 3)) (s.mem.readWord (s.sp - 4)) (s.setSp (s.sp - 5))
        crossed := pageStart s.params s.sp || pageStart s.params (s.sp - 1) || pageStart s.params (s.sp - 2) ||
          pageStart s.params (s.sp - 3) || pageStart s.params (s.sp - 4) } := by
  obtain ⟨g5, g4, g3, g2, g1⟩ := hw
  have sub (k : Addr) : s.sp - k - 1 = s.sp - (k + 1) := by
    rw [BitVec.sub_sub]
  have h2 : s.sp - 1 - 1 = s.sp - 2 := sub 1
  have h3 : s.sp - 2 - 1 = s.sp - 3 := sub 2
  have h4 : s.sp - 3 - 1 = s.sp - 4 := sub 3
  have h5 : s.sp - 4 - 1 = s.sp - 5 := sub 4
  have one (b : Bool) (x : Addr) (hx : s.hasWord x = true) :
      pop { st := s.setSp x, crossed := b } =
        .next (s.mem.readWord x, { st := s.setSp (x - 1), crossed := b || pageStart s.params x }) := by
    rw [pop_of (w := { st := s.setSp x, crossed := b }) rfl hm hx]
    rfl
  rw [popBlock, beginWork, pop_of (w := { st := s, crossed := false }) hs hm g5]
  simp only [andThen_next, one _ _ g4, h2, one _ _ g3, h3, one _ _ g2, h4, one _ _ g1, h5, Bool.false_or]

theorem execRet_eq_next :
    execRet s = .next t ↔ s.params.hasStack = true ∧ s.mapOn = false ∧
      ((s.params.retSpFromFp = false ∧ popBlock s.pc s.advance = .next t) ∨
       (s.params.retSpFromFp = true ∧ s.fpWritten = true ∧ popBlock s.pc (s.advance.setSp s.fp) = .next t)) := by
  simp only [execRet, gate_eq_next, andThen_eq_next, reloadSp_eq_next]
  constructor
  · rintro ⟨hf, hm, u, ⟨hp, rfl⟩ | ⟨hp, hw, rfl⟩, h⟩
    · exact ⟨hf, hm, .inl ⟨hp, h⟩⟩
    · exact ⟨hf, hm, .inr ⟨hp, hw, h⟩⟩
  · rintro ⟨hf, hm, ⟨hp, h⟩ | ⟨hp, hw, h⟩⟩
    · exact ⟨hf, hm, _, .inl ⟨hp, rfl⟩, h⟩
    · exact ⟨hf, hm, _, .inr ⟨hp, hw, rfl⟩, h⟩

theorem execLdb_eq_next {acs acd : Acc} :
    execLdb acs acd s = .next t ↔ s.params.hasByte = true ∧ s.mapOn = false ∧
      s.hasWord (bytePtrWord (s.ac acs)) = true ∧
      t = s.advance.setAc acd ((selectByte s.params (bytePtrSelect (s.ac acs))
            (s.mem.readWord (bytePtrWord (s.ac acs)))).setWidth 16) := by
  simp only [execLdb, gate_eq_next, andThen_eq_next, memRead_eq_next, Host.Outcome.next.injEq]
  constructor
  · rintro ⟨hf, hm, w, ⟨-, hw, rfl⟩, rfl⟩
    exact ⟨hf, hm, hw, rfl⟩
  · rintro ⟨hf, hm, hw, rfl⟩
    exact ⟨hf, hm, _, ⟨hm, hw, rfl⟩, rfl⟩

theorem execStb_eq_next {acs acd : Acc} :
    execStb acs acd s = .next t ↔ s.params.hasByte = true ∧ s.mapOn = false ∧
      s.hasWord (bytePtrWord (s.ac acd)) = true ∧
      t = s.advance.setMem (s.mem.writeWord (bytePtrWord (s.ac acd))
            (replaceByte s.params (bytePtrSelect (s.ac acd)) (rightByte (s.ac acs))
              (s.mem.readWord (bytePtrWord (s.ac acd))))) := by
  simp only [execStb, gate_eq_next, andThen_eq_next, memRead_eq_next, memWrite_eq_next]
  constructor
  · rintro ⟨hf, hm, w, ⟨-, hw, rfl⟩, -, -, rfl⟩
    exact ⟨hf, hm, hw, rfl⟩
  · rintro ⟨hf, hm, hw, rfl⟩
    exact ⟨hf, hm, _, ⟨hm, hw, rfl⟩, hm, hw, rfl⟩

theorem execTrap_eq_next {acs acd : Acc} {number : Nat} :
    execTrap acs acd number s = .next t ↔
      (s.params.hasTrap = true ∧ s.hasWord 38 = true ∧ s.hasWord 39 = true ∧ topBit (s.mem.readWord 39) = false ∧
        t = ((s.setUsermap (s.usermap && !s.params.mapped)).setMem (s.mem.writeWord 38 (zext16 s.pc))).setPc
              (low15 (s.mem.readWord 39))) ∨
      (s.params.hasTrap = false ∧ s.mapOn = false ∧ t = s.advance) := by
  unfold execTrap
  cases s.params.hasTrap with
  | true => simp [raiseInstructionTrap_eq_next]
  | false => simp [gate_eq_next, eq_comm (a := t)]

end Sys2Proof.Machine
end

