-- ==== Sys2Proof/Laws/PerInstr.lean ====
section
/-! SUPPORT. Families of statements about instructions as syntax, one lemma a constructor (LAWS.json). -/

namespace Sys2Proof.Laws.EncodingFitsRow

/-- The word of a well-formed instruction fits its row of the table of 30_encoding.md R69: "A word `w` is the instruction
of a row when `w AND mask = match` (bitwise)". -/
def Statement (i : Instr) : Prop := i.wf = true → encode i &&& rowMask i = rowMatch i

theorem mul : Statement .mul := by intro _; decide
theorem div : Statement .div := by intro _; decide
theorem mtsp (ac : Acc) : Statement (.mtsp ac) := by intro _; cases ac <;> decide
theorem mfsp (ac : Acc) : Statement (.mfsp ac) := by intro _; cases ac <;> decide
theorem mtfp (ac : Acc) : Statement (.mtfp ac) := by intro _; cases ac <;> decide
theorem mffp (ac : Acc) : Statement (.mffp ac) := by intro _; cases ac <;> decide
theorem psha (ac : Acc) : Statement (.psha ac) := by intro _; cases ac <;> decide
theorem popa (ac : Acc) : Statement (.popa ac) := by intro _; cases ac <;> decide
theorem sav : Statement .sav := by intro _; decide
theorem ret : Statement .ret := by intro _; decide
theorem ldb (acs acd : Acc) : Statement (.ldb acs acd) := by intro _; cases acs <;> cases acd <;> decide
theorem stb (acs acd : Acc) : Statement (.stb acs acd) := by intro _; cases acs <;> cases acd <;> decide

/-- A word of class 1 with marker `1000` fits the row of TRAP whatever stands between them. -/
theorem trap_word {n : Nat} (h : n % 16 = 8) (h1 : 32768 ≤ n) (h2 : n < 65536) :
    BitVec.ofNat 16 n &&& 0x800F = (0x8008 : Word) := by
  have hb : n.testBit 15 = true := by
    rw [Nat.testBit_eq_decide_div_mod_eq]
    simp only [decide_eq_true_eq]
    omega
  have hand : n &&& 32783 = 32776 := by
    rw [show (32783 : Nat) = 2 ^ 15 ||| (2 ^ 4 - 1) by decide, Nat.and_or_distrib_left, Nat.and_two_pow,
      Nat.and_two_pow_sub_one_eq_mod, hb, show n % 2 ^ 4 = 8 from h]
    decide
  apply BitVec.eq_of_toNat_eq
  rw [BitVec.toNat_and, BitVec.toNat_ofNat, Nat.mod_eq_of_lt h2]
  exact hand

theorem trap (acs acd : Acc) (number : Nat) : Statement (.trap acs acd number) := by
  intro h
  have hn : number < 128 := of_decide_eq_true h
  have hs : acs.number < 4 := by cases acs <;> decide
  have hd : acd.number < 4 := by cases acd <;> decide
  exact trap_word (n := encodeNat (.trap acs acd number)) (by simp only [encodeNat]; omega)
    (by simp only [encodeNat]; omega) (by simp only [encodeNat]; omega)

end Sys2Proof.Laws.EncodingFitsRow
end

