-- ==== Sys2Proof/Tests/Slice0.lean ====
section
/-! SUPPORT. The model's own tests: ill-formed terms, words written out from the spec's encodings, one step at a time on
small states with the vectors of 95_test_vectors.md, and for every statement with hypotheses a state that meets them. -/

namespace Sys2Proof.Tests

open Sys2Proof Sys2Proof.Machine

/-! ### Well-formedness -/

/-- 30_encoding.md R66: the trap number is 0..127. -/
theorem test_wf_trapNumber :
    Instr.wf (.trap .ac0 .ac0 128) = false ∧ Instr.wf (.trap .ac3 .ac3 127) = true := by decide

/-- 20_memory.md R40, R47: at most 2^15 words, pages of at least 40 words. -/
theorem test_wf_params :
    Params.wf { defaultParams with memWords := 32769 } = false ∧ Params.wf { defaultParams with pageWords := 39 } = false ∧
    Params.wf { defaultParams with pageWords := 40 } = true ∧ Params.wf defaultParams = true := by decide

/-! ### Decoding: words of 95_test_vectors.md sections 2.1 and 2.2 -/

/-- `011 10 110 11 000001` and `011 10 110 01 000001`. -/
theorem test_decode_muldiv : decode 0b0111011011000001 = .instr .mul ∧ decode 0b0111011001000001 = .instr .div := by
  decide

/-- `011 aa ttt cc 000001` with aa = 11, 01, 10, 11, 01, 10. -/
theorem test_decode_stack :
    decode 0b0111101000000001 = .instr (.mtsp .ac3) ∧ decode 0b0110101010000001 = .instr (.mfsp .ac1) ∧
    decode 0b0111000000000001 = .instr (.mtfp .ac2) ∧ decode 0b0111100010000001 = .instr (.mffp .ac3) ∧
    decode 0b0110101100000001 = .instr (.psha .ac1) ∧ decode 0b0111001110000001 = .instr (.popa .ac2) := by decide

/-- SAV and RET, bits 3-4 ignored. -/
theorem test_decode_savRet :
    decode 0b0110010100000001 = .instr .sav ∧ decode 0x7D01 = .instr .sav ∧
    decode 0b0110010110000001 = .instr .ret ∧ decode 0x6D81 = .instr .ret := by decide

/-- The byte form: ACD in bits 3-4, ACS in bits 8-9. -/
theorem test_decode_byte :
    decode 0b0111000101000001 = .instr (.ldb .ac1 .ac2) ∧ decode 0b0110010011000001 = .instr (.stb .ac3 .ac0) := by
  decide

/-- The trap form: `1 01 10 1010011 1000`, and the vectors with every field full. -/
theorem test_decode_trap :
    decode 0b1011010100111000 = .instr (.trap .ac1 .ac2 83) ∧ decode 0xFFF8 = .instr (.trap .ac3 .ac3 127) ∧
    decode 0xE7F8 = .instr (.trap .ac3 .ac0 127) := by decide

/-- Words with no meaning. -/
theorem test_decode_refused :
    decode 0x6041 = .undefinedDevice1Code ∧ decode 0x66C1 = .undefinedDevice1Code ∧
    decode 0x7601 = .undefinedDevice1Code ∧ decode 0x6741 = .undefinedDevice1Code ∧
    decode 0x6300 = .notInScope ∧ decode 0x6302 = .notInScope ∧ decode 0x4000 = .notInScope ∧
    decode 0x8009 = .notInScope ∧ decode 0xFFFF = .notInScope := by decide

/-- What the host asks of the decoder. -/
theorem test_decodeTableWord :
    decodeTableWord 16 0x8008 = some (.trap .ac0 .ac0 0) ∧ decodeTableWord 16 0x6041 = none := by decide

/-! ### Small states -/

/-- The state an outcome holds, if it is a next state. -/
def nextOf (o : Host.Outcome State Fault Refusal) : Option State :=
  match o with
  | .next t => some t
  | .fault _ => none
  | .refused _ => none

/-- The words of a list stored in memory. -/
def withWords (ws : List (Addr × Word)) (s : State) : State :=
  { s with mem := ws.foldl (fun m x => m.writeWord x.1 x.2) s.mem }

/-- A launch state of the machine with R5's default parameters, those of `State.reset`: the stack in the page at 0x4100, both vectors set,
ION = 1. -/
def base : State :=
  withWords [(3, 0x0500), (39, 0x0300)]
    { State.reset with
      acs := { ac0 := 0x1111, ac1 := 0x2222, ac2 := 0x3333, ac3 := 0xC444 }
      c := true
      pc := 0x0200
      sp := 0x4110
      fp := 0x4100
      ion := true }

/-- `base` on another machine. -/
def on (p : Params) : State := { base with params := p }

/-- `base` with other accumulators. -/
def withAcs (a b c d : Word) (s : State) : State := { s with acs := { ac0 := a, ac1 := b, ac2 := c, ac3 := d } }

/-- `base` on a mapped machine in user mode. -/
def userMode : State := { base with params := { defaultParams with mapped := true }, usermap := true }

/-- `s` with another stack pointer. -/
def at_ (sp : Addr) (s : State) : State := { s with sp := sp }

/-- A machine that remembers stack faults. -/
def latching : Params := { defaultParams with stkFaultLatch := true }

/-- A machine whose DIV completes with free values where it has no quotient. -/
def drawing : Params := { defaultParams with divOverflow := .draw }

/-- The state after `MUL`, for one row of the table of vectors. -/
def mulRow (p : Params) (a b c : Word) : Option (Word × Word) :=
  (nextOf (exec .mul (withAcs a b c 0 (on p)))).map fun t => (t.ac .ac0, t.ac .ac1)

/-- The state after `DIV`, for one row of the table of vectors. -/
def divRow (a b c : Word) : Option (Word × Word) :=
  (nextOf (exec .div (withAcs a b c 0 base))).map fun t => (t.ac .ac0, t.ac .ac1)

/-! ### One step of each instruction -/

/-- Vectors M1, M4, M5. -/
theorem test_mul : mulRow defaultParams 0 0x1234 0x0100 = some (0x0012, 0x3400) ∧
    mulRow defaultParams 0 0xFFFF 0xFFFF = some (0xFFFE, 0x0001) ∧
    mulRow defaultParams 2 0xFFFF 0xFFFF = some (0x0000, 0x0001) := by decide

/-- Vectors M6, M7, M10, under the other `MUL_MODE`. -/
theorem test_mul_otherMode :
    mulRow { defaultParams with mulMode := .ac0AddedToProduct } 5 3 2 = some (0, 0x000B) ∧
    mulRow { defaultParams with mulMode := .ac0AddedToProduct } 0xFFFF 0x8000 2 = some (1, 0xFFFF) ∧
    mulRow { defaultParams with mulMode := .ac0AddedToProduct } 0x1000 0x4000 4 = some (1, 0x1000) := by decide

/-- Vectors V1, V4, V6, V9. -/
theorem test_div : divRow 0 0x0064 7 = some (2, 0x000E) ∧ divRow 1 0 2 = some (0, 0x8000) ∧
    divRow 6 0xFFFF 7 = some (6, 0xFFFF) ∧ divRow 0x7FFF 0xFFFF 0x8000 = some (0x7FFF, 0xFFFF) := by decide

/-- Vectors V10, V11, with the spec's default for `DIV_OVERFLOW`. -/
theorem test_div_noQuotient :
    exec .div (withAcs 0 0 0 0 base) = .fault .divideUnspecified ∧
    exec .div (withAcs 1 0 1 0 base) = .fault .divideUnspecified :=
  ⟨rfl, rfl⟩

/-- DG bit 0 is dropped on the way in and 0 on the way out. -/
theorem test_mtsp : (nextOf (exec (.mtsp .ac3) base)).map (·.sp) = some 0x4444 := by decide

theorem test_mfsp : (nextOf (exec (.mfsp .ac2) (at_ 0x7FFF base))).map (·.ac .ac2) = some 0x7FFF := by decide

theorem test_mtfp : (nextOf (exec (.mtfp .ac3) base)).map (fun t => (t.fp, t.sp)) = some (0x4444, 0x4110) := by decide

theorem test_mffp : (nextOf (exec (.mffp .ac1) base)).map (·.ac .ac1) = some 0x4100 := by decide

/-- A push stores above the old stack pointer. -/
theorem test_psha : (nextOf (exec (.psha .ac1) base)).map (fun t => (t.sp, t.mem.readWord 0x4111, t.pc)) =
    some (0x4111, 0x2222, 0x0201) := by decide

/-- 42_stack.md R117: a push into the next page with ION = 1 completes and then faults. -/
theorem test_psha_stackFault : (nextOf (exec (.psha .ac0) (at_ 0x40FF base))).map
      (fun t => (t.sp, t.mem.readWord 0x4100, t.mem.readWord 0, t.pc, t.ion)) =
    some (0x4100, 0x1111, 0x0200, 0x0500, false) := by decide

/-- A pop reads the word at the stack pointer. -/
theorem test_popa : (nextOf (exec (.popa .ac3) (withWords [(0x4110, 0xBEEF)] base))).map
      (fun t => (t.ac .ac3, t.sp, t.pc)) = some (0xBEEF, 0x410F, 0x0201) := by decide

/-- A pop out of a page with ION = 0 has no further effect. -/
theorem test_popa_noFault : (nextOf (exec (.popa .ac0) { at_ 0x4100 base with ion := false })).map
      (fun t => (t.sp, t.pc, t.stkpend)) = some (0x40FF, 0x0201, false) := by decide

/-- The return block of 42_stack.md R121. -/
theorem test_sav_block : (nextOf (exec .sav base)).map (fun t =>
      [t.mem.readWord 0x4111, t.mem.readWord 0x4112, t.mem.readWord 0x4113, t.mem.readWord 0x4114,
        t.mem.readWord 0x4115]) =
    some [0x1111, 0x2222, 0x3333, 0x4100, 0xC444] := by decide

theorem test_sav_frame : (nextOf (exec .sav { base with c := false })).map (fun t =>
      (t.sp, t.fp, t.ac .ac3, t.mem.readWord 0x4115)) =
    some (0x4115, 0x4115, 0x4115, 0x4444) := by decide

/-- What RET takes from each word. -/
theorem test_ret : (nextOf (exec .ret (withWords [(0x4110, 0x8123), (0x410F, 0xC004), (0x410E, 3), (0x410D, 2),
      (0x410C, 1)] base))).map (fun t => (t.pc, t.c, t.acs, t.fp, t.sp)) =
    some (0x0123, true, { ac0 := 1, ac1 := 2, ac2 := 3, ac3 := 0xC004 }, 0x4004, 0x410B) := by decide

/-- 92_eei_decisions.md D35: the other reading starts at FP. -/
theorem test_ret_fromFp : (nextOf (exec .ret (withWords [(0x4120, 0x0321)]
      { on { defaultParams with retSpFromFp := true } with fp := 0x4120 }))).map (fun t => (t.pc, t.sp)) =
    some (0x0321, 0x411B) := by decide

/-- Left and right byte, zero extended. -/
theorem test_ldb :
    (nextOf (exec (.ldb .ac0 .ac1) (withAcs 0x0600 0xFFFF 0 0 (withWords [(0x0300, 0xABCD)] base)))).map (·.ac .ac1) =
      some 0x00AB ∧
    (nextOf (exec (.ldb .ac0 .ac0) (withAcs 0x0601 0xFFFF 0 0 (withWords [(0x0300, 0xABCD)] base)))).map (·.ac .ac0) =
      some 0x00CD := by decide

/-- The other half is kept, and the left half of ACS plays no part. -/
theorem test_stb :
    (nextOf (exec (.stb .ac1 .ac0) (withAcs 0x0600 0x1234 0 0 (withWords [(0x0300, 0xABCD)] base)))).map
      (·.mem.readWord 0x0300) = some 0x34CD ∧
    (nextOf (exec (.stb .ac1 .ac0) (withAcs 0x0601 0x1234 0 0 (withWords [(0x0300, 0xABCD)] base)))).map
      (·.mem.readWord 0x0300) = some 0xAB34 := by decide

/-- The example of 44_trap.md R151. -/
theorem test_trap : (nextOf (exec (.trap .ac1 .ac2 83) base)).map (fun t =>
      (t.mem.readWord 38, t.pc, t.ion, t.acs, t.c)) = some (0x0200, 0x0300, true, base.acs, true) := by decide

/-- TRAP leaves user mode. -/
theorem test_trap_userMode : (nextOf (exec (.trap .ac0 .ac0 0) userMode)).map (fun t => (t.usermap, t.pc)) =
    some (false, 0x0300) := by decide

/-! ### A step -/

theorem test_step_refusesResetMemory : step State.reset = .refused .notInScope := rfl

theorem test_step_runsPlacedWord : (nextOf (step (State.reset.withFetchWord 16 0x6501))).map
      (fun t => (t.sp, t.fp, t.pc)) = some (5, 5, 1) := by decide

/-! ### States that meet the hypotheses of the statements -/

theorem witness_DecodeOfEncodeIsIdentity : Instr.wf (.trap .ac3 .ac0 127) = true := by decide

theorem witness_EncodeOfDecodeIsTheWord :
    decode 0x7D01 = .instr .sav ∧ decode 0x6D81 = .instr .ret ∧ decode 0x71C1 = .instr (.ldb .ac3 .ac2) := by decide

theorem witness_AcFieldOfSavRetIsIgnored :
    decode (BitVec.ofNat 16 (0x66C1 + 2 * 0x800)) = .instr .mul ∧
    decode (BitVec.ofNat 16 (0x66C1 + 3 * 0x800)) = .undefinedDevice1Code := by decide

theorem witness_UndefinedDevice1Words : decode 0x7701 = .undefinedDevice1Code ∧ decode 0x65C1 = .undefinedDevice1Code ∧
    decode 0x7681 = .undefinedDevice1Code ∧ decode 0x7E41 = .undefinedDevice1Code := by decide

theorem witness_IoWordsNameDevice1 : isTrap .ret = false ∧ decode 0x7581 = .instr .ret := by decide

theorem witness_TrapWordFields : (encode (.trap .ac3 .ac3 127)).toNat = 0xFFF8 := by decide

theorem witness_StepRunsTheDecodedInstruction :
    base.latchedFaultDue = false ∧ (withWords [(0x0200, 0x76C1)] base).hasWord 0x0200 = true ∧
    decode ((withWords [(0x0200, 0x76C1)] base).mem.readWord 0x0200) = .instr .mul := by decide

theorem witness_StepRefusesWordsWithoutMeaning :
    decode ((withWords [(0x0200, 0x6041)] base).mem.readWord 0x0200) = .undefinedDevice1Code ∧
    decode (base.mem.readWord 0x0200) = .notInScope ∧ base.hasWord base.pc = true ∧ base.latchedFaultDue = false ∧
    (on { defaultParams with memWords := 0x0200 }).hasWord 0x0200 = false ∧
    (on { defaultParams with memWords := 0x0201 }).hasWord 0x0200 = true := by decide

theorem witness_PlacedWordIsRunNext :
    base.mem.wf ∧ base.hasWord base.pc = true ∧ decode (BitVec.ofNat 16 0xFFF8) = .instr (.trap .ac3 .ac3 127) := by
  decide

theorem witness_StoreIntoNextInstructionIsFetched :
    base.mem.wf ∧ bytePtrWord ((withAcs 0x0403 5 0 0 base).ac .ac0) = base.pc + 1 ∧
    ∃ t, exec (.stb .ac1 .ac0) (withAcs 0x0403 5 0 0 base) = .next t := ⟨by decide, by decide, _, rfl⟩

theorem witness_FeatureAndModeTests :
    isTrap .sav = false ∧ featureOf { defaultParams with hasStack := false } .sav = false ∧
    featureOf userMode.params .sav = true ∧ userMode.mapOn = true := by decide

/-- One machine for each clause: the highest word is one below the one that is accessed. -/
theorem witness_AbsentMemoryIsRefused :
    (on { defaultParams with memWords := 0x4111 }).hasWord (base.sp + 1) = false ∧
    (on { defaultParams with memWords := 0x4110 }).hasWord base.sp = false ∧
    (on { defaultParams with memWords := 0x1111 }).hasWord (bytePtrWord (base.ac .ac1)) = false ∧
    (on { defaultParams with memWords := 39 }).hasWord 38 = true ∧
    (on { defaultParams with memWords := 39 }).hasWord 39 = false ∧
    Runs true (on { defaultParams with memWords := 39 }) ∧ base.spWritten = true := by decide

/-- SAV whose fifth word does not exist, and RET whose first and whose last do not, the last after the wrap to 0x7FFF. -/
theorem witness_AbsentMemoryIsRefused_block :
    (∃ k, k < 5 ∧ (on { defaultParams with memWords := 0x4115 }).hasWord (base.sp + 1 + BitVec.ofNat 15 k) = false) ∧
    exec .sav (on { defaultParams with memWords := 0x4115 }) = .refused .noSuchMemory ∧
    exec .ret (on { defaultParams with memWords := 0x4110 }) = .refused .noSuchMemory ∧
    (∃ k, k < 5 ∧ (at_ 3 (on { defaultParams with memWords := 0x7FFF })).hasWord (3 - BitVec.ofNat 15 k) = false) ∧
    exec .ret (at_ 3 (on { defaultParams with memWords := 0x7FFF })) = .refused .noSuchMemory :=
  ⟨by decide, rfl, rfl, by decide, rfl⟩

/-- RET that starts at FP = 0x4100, whose first word does not exist, with SP written and not. -/
theorem witness_AbsentMemoryIsRefused_retFromFp :
    retStart (on { defaultParams with retSpFromFp := true, memWords := 0x4100 }) = 0x4100 ∧
    (on { defaultParams with retSpFromFp := true, memWords := 0x4100 }).hasWord (0x4100 - BitVec.ofNat 15 0) = false ∧
    exec .ret (on { defaultParams with retSpFromFp := true, memWords := 0x4100 }) = .refused .noSuchMemory ∧
    exec .ret { on { defaultParams with retSpFromFp := true, memWords := 0x4100 } with spWritten := false } =
      .refused .noSuchMemory := ⟨by decide, by decide, rfl, rfl⟩

theorem witness_MulResult :
    Runs base.params.hasMulDiv base ∧ base.params.mulMode = .highAddedToAc0 ∧
    Runs true (on { defaultParams with mulMode := .ac0AddedToProduct }) := by decide

/-- The largest AC0 with a quotient, under both values of `DIV_CARRY`. -/
theorem witness_DivResult :
    Runs base.params.hasMulDiv (withAcs 0x3332 0 0x3333 0 base) ∧
    ((withAcs 0x3332 0 0x3333 0 base).ac .ac0).toNat < ((withAcs 0x3332 0 0x3333 0 base).ac .ac2).toNat ∧
    base.params.divCarry = .draw ∧ Runs true (on { defaultParams with divCarry := .overflowFlag }) := by decide

/-- The smallest AC0 without one. -/
theorem witness_DivWithNoQuotient :
    ((withAcs 0x3333 0 0x3333 0 base).ac .ac2).toNat ≤ ((withAcs 0x3333 0 0x3333 0 base).ac .ac0).toNat ∧
    base.params.divOverflow = .fault ∧ Runs true (on drawing) ∧ drawing.divOverflow = .draw ∧
    Runs true (on { defaultParams with divOverflow := .unchangedCarry1 }) := by decide

/-- The three outcomes of such a divide. -/
theorem test_div_noQuotient_outcomes :
    (nextOf (exec .div (withAcs 3 0 3 0 (on { defaultParams with divOverflow := .unchangedCarry1 })))).map
      (fun t => (t.c, t.acs)) = some (true, { ac0 := 3, ac1 := 0, ac2 := 3, ac3 := 0 }) ∧
    (nextOf (exec .div (withAcs 3 0 3 9 (on drawing)))).map (fun t => (t.ac .ac2, t.ac .ac3, t.pc)) = some (3, 9, 0x0201) := by
  decide

theorem witness_MulThenDivRestores :
    Runs base.params.hasMulDiv (withAcs 0 0xFFFF 1 0 base) ∧ (withAcs 0 0xFFFF 1 0 base).ac .ac0 = 0 ∧
    (withAcs 0 0xFFFF 1 0 base).ac .ac2 ≠ 0 := by decide

theorem witness_MulDivFrame :
    (∃ t, exec .mul base = .next t) ∧ (∃ t, exec .div base = .next t) ∧
    exec .mul (on { defaultParams with hasMulDiv := false }) = .refused .featureAbsent := ⟨⟨_, rfl⟩, ⟨_, rfl⟩, rfl⟩

/-- `MtspResult`, `MfspResult`, `MtfpResult`, `MffpResult`: both marks, written and unwritten. -/
theorem witness_PointerMoveResults :
    Runs base.params.hasStack base ∧ base.spWritten = true ∧ base.fpWritten = true ∧
    Runs base.params.hasStack { base with spWritten := false, fpWritten := false } := by decide

theorem witness_PointerMoveFrame :
    (∃ t, exec (.mtsp .ac0) base = .next t) ∧ (∃ t, exec (.mtfp .ac0) base = .next t) ∧
    (∃ t, exec (.mfsp .ac0) base = .next t) ∧ (∃ t, exec (.mffp .ac0) base = .next t) :=
  ⟨⟨_, rfl⟩, ⟨_, rfl⟩, ⟨_, rfl⟩, ⟨_, rfl⟩⟩

theorem witness_UnwrittenStackPointerFaults :
    Runs base.params.hasStack { base with spWritten := false } ∧ base.params.retSpFromFp = false := by decide

theorem witness_FramePointerMustBeWritten :
    exec .sav { base with fpWritten := false } = .fault .unwrittenFP ∧ base.params.retSpFromFp = false ∧
    (∃ t, exec (.mtfp .ac0) base = .next t) ∧ (∃ t, exec .ret base = .next t) ∧ (∃ t, exec .sav base = .next t) :=
  ⟨rfl, rfl, ⟨_, rfl⟩, ⟨_, rfl⟩, ⟨_, rfl⟩⟩

/-- PSHA with no crossing, with a crossing at each ION and latch, and with each kind of vector; SP = 0x40FF is the last word
before a page and 0x7FFF the last of memory. -/
theorem witness_PshaResult :
    Runs base.params.hasStack base ∧ base.spWritten = true ∧ base.hasWord (base.sp + 1) = true ∧ base.mem.wf ∧
    ¬ CrossesUp base.params 0x4110 1 ∧ ¬ CrossesUp base.params 0x4100 1 ∧ CrossesUp base.params 0x40FF 1 ∧
    CrossesUp base.params 0x7FFF 1 ∧ base.ion = true ∧ topBit (base.mem.readWord 3) = false ∧
    topBit ((withWords [(3, 0x8500)] base).mem.readWord 3) = true ∧ base.params.stkFaultLatch = false ∧
    Runs latching.hasStack (on latching) := by decide

/-- The last clause: three words of memory, the push goes to word 0, and word 3 does not exist. -/
theorem witness_PshaResult_absentVector :
    (at_ 0x7FFF (on { defaultParams with memWords := 3 })).hasWord (0x7FFF + 1) = true ∧
    CrossesUp base.params 0x7FFF 1 ∧
    ((on { defaultParams with memWords := 3 }).hasWord 0 && (on { defaultParams with memWords := 3 }).hasWord 3) = false ∧
    exec (.psha .ac0) (at_ 0x7FFF (on { defaultParams with memWords := 3 })) = .refused .noSuchMemory :=
  ⟨rfl, by decide, rfl, rfl⟩

theorem test_psha_latch : (nextOf (exec (.psha .ac0) { at_ 0x40FF (on latching) with ion := false })).map
      (fun t => (t.stkpend, t.pc)) = some (true, 0x0201) := by decide

/-- POPA: SP = 0x4100 is the first word of a page, 0x4101 the second, and 0 the first of memory. -/
theorem witness_PopaResult :
    base.hasWord base.sp = true ∧ ¬ CrossesDown base.params 0x4101 1 ∧ ¬ CrossesDown base.params 0x40FF 1 ∧
    CrossesDown base.params 0x4100 1 ∧ CrossesDown base.params 0 1 ∧
    exec (.popa .ac0) (at_ 0 (on { defaultParams with memWords := 3 })) = .refused .noSuchMemory ∧
    exec (.popa .ac0) (at_ 0x4100 (withWords [(3, 0x8500)] base)) = .refused .indirectChain :=
  ⟨by decide, by decide, by decide, by decide, by decide, rfl, rfl⟩

/-- SAV: from 0x40FA the five pushes just stay in the page, from 0x40FB the last one leaves it. -/
theorem witness_SavResult :
    Runs base.params.hasStack base ∧ base.spWritten = true ∧ base.fpWritten = true ∧ HasWords base (base.sp + 1) 5 ∧
    base.mem.wf ∧ ¬ CrossesUp base.params 0x40FA 5 ∧ CrossesUp base.params 0x40FB 5 ∧ CrossesUp base.params 0x40FF 5 ∧
    ¬ CrossesUp base.params 0x4100 5 := by decide

/-- SAV across a page with ION = 1 completes, and then faults. -/
theorem witness_SavResult_fault : (nextOf (exec .sav (at_ 0x40FB base))).map
      (fun t => (t.sp, t.fp, t.ac .ac3, t.mem.readWord 0, t.pc, t.ion)) =
    some (0x4100, 0x4100, 0x4100, 0x0200, 0x0500, false) := by decide

theorem witness_SavStoresReturnBlock : base.mem.wf ∧ ∃ t, exec .sav base = .next t ∧ t.ion = base.ion :=
  ⟨by decide, _, rfl, rfl⟩

/-- RET, under both values of `RET_SP_FROM_FP`; popping from 0x4104 down to 0x4100 reads the first word of the page. -/
theorem witness_RetResult :
    retStart base = 0x4110 ∧ retStart (on { defaultParams with retSpFromFp := true }) = 0x4100 ∧
    Runs base.params.hasStack base ∧ HasWords base (retStart base - 4) 5 ∧ base.mem.wf ∧
    ¬ CrossesDown base.params 0x4105 5 ∧ CrossesDown base.params 0x4104 5 ∧ CrossesDown base.params 0x4100 5 ∧
    ¬ CrossesDown base.params 0x40FF 5 ∧
    Runs true { on { defaultParams with retSpFromFp := true } with fpWritten := false } := by decide

/-- 92_eei_decisions.md D36: a RET that faults goes to the handler, with its own address saved. -/
theorem witness_RetResult_fault :
    (nextOf (exec .ret (at_ 0x4104 base))).map (fun t => (t.pc, t.mem.readWord 0, t.ion, t.sp)) =
    some (0x0500, 0x0200, false, 0x40FF) := by decide

theorem witness_SavThenRet_interruptsOn :
    base.ion = true ∧ ¬ CrossesUp base.params base.sp 5 ∧ ¬ CrossesDown base.params (base.sp + 5) 5 ∧
    ∃ t, exec .sav base = .next t ∧ t.ion = true ∧ t.sp = base.sp + 5 :=
  ⟨rfl, by decide, by decide, _, rfl, rfl, rfl⟩

theorem witness_SavThenRet :
    ∃ t, exec .sav { base with ion := false } = .next t ∧ t.params = base.params ∧ t.mapOn = false ∧ t.ion = false ∧
      t.spWritten = true ∧ t.fpWritten = true ∧ ({ base with ion := false } : State).mem.wf :=
  ⟨_, rfl, rfl, rfl, rfl, rfl, rfl, by decide⟩

theorem witness_PushThenPop : base.mem.wf ∧ ∃ w, push 0xBEEF (beginWork base) = .next w := ⟨by decide, _, rfl⟩

theorem witness_PageCrossingIsChangeOfPage :
    0 < base.params.pageWords ∧ base.params.pageWords < 32768 ∧
    (0x40FF : Addr).toNat / 256 ≠ (0x40FF + 1 : Addr).toNat / 256 ∧
    (0x7FFF : Addr).toNat / 256 ≠ (0x7FFF + 1 : Addr).toNat / 256 ∧
    (0 : Addr).toNat / 256 ≠ (0 - 1 : Addr).toNat / 256 := by decide

theorem witness_StackFaultTakenExactlyOnCrossing :
    ∃ t, exec (.psha .ac0) (at_ 0x40FF base) = .next t ∧ t.ion ≠ base.ion := ⟨_, rfl, by decide⟩

theorem witness_RememberedFaultIsTaken :
    ({ on latching with stkpend := true } : State).latchedFaultDue = true ∧ (on latching).mapOn = false ∧
    (on latching).hasWord 0 = true ∧ (on latching).hasWord 3 = true ∧
    topBit ((on latching).mem.readWord 3) = false ∧ (on latching).mem.wf := by decide

/-- The three refusals of a remembered fault: user mode, no word 3, a vector word with DG bit 0 = 1. -/
theorem witness_RememberedFaultIsTaken_refused :
    step { userMode with params := { latching with mapped := true }, stkpend := true } = .refused .userMapEnabled ∧
    step { on { latching with memWords := 3 } with stkpend := true } = .refused .noSuchMemory ∧
    ({ userMode with params := { latching with mapped := true }, stkpend := true } : State).latchedFaultDue = true ∧
    ({ on { latching with memWords := 3 } with stkpend := true } : State).latchedFaultDue = true ∧
    topBit ((withWords [(3, 0x8500)] (on latching)).mem.readWord 3) = true := ⟨rfl, rfl, rfl, rfl, by decide⟩

/-- The remembered fault goes to the handler before the word at PC is fetched. -/
theorem test_rememberedFault :
    ∃ t, step { on latching with stkpend := true } = .next t ∧ t.pc = 0x0500 ∧ t.ion = false ∧ t.stkpend = false ∧
      t.draws = 1 :=
  ⟨_, (raiseStackFault_of (Config.freeAddr 0) (s := { on latching with draws := 1 }) rfl rfl rfl).trans
    (if_neg (by decide)), by decide, rfl, rfl, rfl⟩

/-- The frames of PSHA, POPA, SAV and RET: each completes without a fault and with one. -/
theorem witness_StackFrames :
    (∃ t, exec (.psha .ac0) base = .next t) ∧ (∃ t, exec (.psha .ac0) (at_ 0x40FF base) = .next t) ∧
    (∃ t, exec (.popa .ac0) base = .next t) ∧ (∃ t, exec (.popa .ac0) (at_ 0x4100 base) = .next t) ∧
    (∃ t, exec .sav base = .next t) ∧ (∃ t, exec .sav (at_ 0x40FB base) = .next t) ∧
    (∃ t, exec .ret base = .next t) ∧ (∃ t, exec .ret (at_ 0x4104 base) = .next t) :=
  ⟨⟨_, rfl⟩, ⟨_, rfl⟩, ⟨_, rfl⟩, ⟨_, rfl⟩, ⟨_, rfl⟩, ⟨_, rfl⟩, ⟨_, rfl⟩, ⟨_, rfl⟩⟩

/-- `LdbResult`, `StbResult`: the highest byte pointer, and the lowest. -/
theorem witness_ByteResults :
    Runs base.params.hasByte (withAcs 0xFFFF 0 0 0 base) ∧ base.mem.wf ∧
    base.hasWord (BitVec.ofNat 15 (0xFFFF / 2)) = true ∧ base.hasWord (BitVec.ofNat 15 (0 / 2)) = true ∧
    Runs true (on { defaultParams with byteSelectLeft := 1 }) := by decide

/-- `StbThenLdb`, `ByteFrame`. -/
theorem witness_ByteFrame :
    (∃ t, exec (.stb .ac1 .ac0) base = .next t) ∧ (∃ t, exec (.ldb .ac0 .ac1) base = .next t) ∧ base.mem.wf :=
  ⟨⟨_, rfl⟩, ⟨_, rfl⟩, by decide⟩

theorem witness_TrapEntersHandler :
    base.params.hasTrap = true ∧ base.hasWord 38 = true ∧ base.hasWord 39 = true ∧ base.mem.wf ∧
    topBit (base.mem.readWord 39) = false ∧ userMode.params.mapped = true ∧ base.params.mapped = false ∧
    topBit ((withWords [(39, 0x8300)] base).mem.readWord 39) = true := by decide

theorem witness_TrapIsNoOpWithoutTheFeature :
    (on { defaultParams with hasTrap := false }).params.hasTrap = false ∧
    (on { defaultParams with hasTrap := false }).mapOn = false := by decide

theorem witness_TrapFrame :
    (∃ t, exec (.trap .ac0 .ac0 0) base = .next t) ∧
    (∃ t, exec (.trap .ac0 .ac0 0) (on { defaultParams with hasTrap := false }) = .next t) ∧
    exec (.trap .ac0 .ac0 0) { userMode with params := { defaultParams with mapped := true, hasTrap := false } } =
      .refused .userMapEnabled := ⟨⟨_, rfl⟩, ⟨_, rfl⟩, rfl⟩

theorem witness_JumpGoesThroughTheVectorWord :
    base.mapOn = false ∧ base.hasWord 3 = true ∧
    ((withWords [(3, 0x7FFF)] base).mem.readWord 3).toNat < 32768 ∧
    32768 ≤ ((withWords [(3, 0x8000)] base).mem.readWord 3).toNat := by decide

/-- `IonIsNeverSet`, `ParametersNeverChange`, `WrittenMarksAreNeverLost`, `StepKeepsInvariant`: a step from an allowed
state. -/
theorem witness_Step :
    (withWords [(0x0200, 0x6301)] base).Inv ∧
    ∃ t, step (withWords [(0x0200, 0x6301)] base) = .next t ∧ t.ion = true ∧ t.spWritten = true :=
  ⟨by decide, _, rfl, rfl, rfl⟩

/-- `UserMapIsOffAfterAStep`: a mapped machine, whose TRAP turns the map off, and an unmapped one. -/
theorem witness_UserMapIsOffAfterAStep :
    (∃ t, step (withWords [(0x0200, 0x8008)] userMode) = .next t ∧ t.usermap = false) ∧
    (∃ t, exec (.trap .ac0 .ac0 0) userMode = .next t ∧ t.usermap ≠ userMode.usermap) ∧
    ∃ t, step (withWords [(0x0200, 0x8008)] base) = .next t := ⟨⟨_, rfl, rfl⟩, ⟨_, rfl, by decide⟩, _, rfl⟩

/-- `CarryIsWrittenOnlyByDivAndRet`, `PointersAreWrittenOnlyByTheirInstructions`: one instruction for each clause. -/
theorem witness_WrittenOnlyBy :
    (∃ t, exec .mul base = .next t) ∧ (∃ t, exec (.mtfp .ac1) base = .next t ∧ t.fp ≠ base.fp) ∧
    (∃ t, exec (.popa .ac1) base = .next t ∧ t.sp ≠ base.sp) :=
  ⟨⟨_, rfl⟩, ⟨_, rfl, by decide⟩, ⟨_, rfl, by decide⟩⟩

/-- Two orders of the same stores. -/
theorem witness_EqualReadsMakeEqualMemories :
    (withWords [(3, 5), (4, 6)] State.reset).mem.wf ∧ (withWords [(4, 6), (3, 5)] State.reset).mem.wf ∧
    (withWords [(3, 5), (4, 6)] State.reset).mem = (withWords [(4, 6), (3, 5)] State.reset).mem ∧
    (withWords [(3, 5), (3, 0)] State.reset).mem = State.reset.mem := by decide

theorem witness_RunEndsAtStop :
    base.pc ∈ [(0x0200 : Addr)] ∧ base.pc ∉ [(0x0201 : Addr)] ∧
    (∃ t, step (withWords [(0x0200, 0x6301)] base) = .next t) ∧
    ∃ t, runTo [0x0201] 2 (withWords [(0x0200, 0x6301)] base) = .final t := ⟨by decide, by decide, ⟨_, rfl⟩, _, rfl⟩

end Sys2Proof.Tests
end

section
/-! SUPPORT. Facts that the frames of the stack instructions share: the two readings of a page crossing agree
(42_stack.md R122), and what the end of an instruction that uses the stack leaves unchanged (60_exceptions.md R163 to
R165). -/

namespace Sys2Proof.Machine

/-! ### Page crossings -/

theorem crossesUp_succ {p : Params} {sp : Addr} {n : Nat} :
    CrossesUp p sp (n + 1) ↔ CrossesUp p sp n ∨ pageStart p (sp + BitVec.ofNat 15 (n + 1)) = true := by
  rw [pageStart_iff]
  exact Nat.exists_lt_succ_right

theorem crossesDown_succ {p : Params} {sp : Addr} {n : Nat} :
    CrossesDown p sp (n + 1) ↔ CrossesDown p sp n ∨ pageStart p (sp - BitVec.ofNat 15 n) = true := by
  rw [pageStart_iff]
  exact Nat.exists_lt_succ_right

theorem not_crossesUp_zero (p : Params) (sp : Addr) : ¬ CrossesUp p sp 0 := fun ⟨_, hk, _⟩ => Nat.not_lt_zero _ hk

theorem not_crossesDown_zero (p : Params) (sp : Addr) : ¬ CrossesDown p sp 0 := fun ⟨_, hk, _⟩ => Nat.not_lt_zero _ hk

theorem crossesUp_one {p : Params} {sp : Addr} : CrossesUp p sp 1 ↔ pageStart p (sp + 1) = true := by
  rw [crossesUp_succ, or_iff_right (not_crossesUp_zero p sp)]
  rfl

theorem crossesDown_one {p : Params} {sp : Addr} : CrossesDown p sp 1 ↔ pageStart p sp = true := by
  rw [crossesDown_succ, or_iff_right (not_crossesDown_zero p sp),
    show sp - BitVec.ofNat 15 0 = sp from BitVec.sub_zero sp]

theorem crossesUp_five {p : Params} {sp : Addr} :
    CrossesUp p sp 5 ↔
      (pageStart p (sp + 1) || pageStart p (sp + 2) || pageStart p (sp + 3) || pageStart p (sp + 4) ||
        pageStart p (sp + 5)) = true := by
  simp only [Bool.or_eq_true, ← crossesUp_one]
  simp only [crossesUp_succ (n := 1), crossesUp_succ (n := 2), crossesUp_succ (n := 3), crossesUp_succ (n := 4)]
  rfl

theorem crossesDown_five {p : Params} {sp : Addr} :
    CrossesDown p sp 5 ↔
      (pageStart p sp || pageStart p (sp - 1) || pageStart p (sp - 2) || pageStart p (sp - 3) ||
        pageStart p (sp - 4)) = true := by
  simp only [Bool.or_eq_true, ← crossesDown_one (sp := sp)]
  simp only [crossesDown_succ (n := 1), crossesDown_succ (n := 2), crossesDown_succ (n := 3),
    crossesDown_succ (n := 4)]
  rfl

/-! ### The end of an instruction that uses the stack -/

/-- From `u`, the state with all the instruction's writes done, to `t`, the state at its end: a crossing with ION = 1 may
change ION, PC and word 0, one with ION = 0 may change STKPEND on a machine with the latch, and nothing else changes. -/
structure StackEndFrame (crossed : Prop) (u t : State) : Prop where
  ac : ∀ j, t.ac j = u.ac j
  c : t.c = u.c
  sp : t.sp = u.sp
  spWritten : t.spWritten = u.spWritten
  fp : t.fp = u.fp
  fpWritten : t.fpWritten = u.fpWritten
  usermap : t.usermap = u.usermap
  params : t.params = u.params
  draws : t.draws = u.draws
  ion : ¬ (u.ion = true ∧ crossed) → t.ion = u.ion
  stkpend : ¬ (u.ion = false ∧ u.params.stkFaultLatch = true ∧ crossed) → t.stkpend = u.stkpend
  mem : ∀ a : Nat, ¬ (a / 2 = 0 ∧ u.ion = true ∧ crossed) → t.mem.readByte a = u.mem.readByte a

theorem StackEndFrame.refl (crossed : Prop) (u : State) : StackEndFrame crossed u u := by
  constructor <;> intros <;> rfl

/-- A stack fault that is taken: ION, PC and word 0 (60_exceptions.md R164). -/
theorem raiseStackFault_frame {a : Addr} {u t : State} {crossed : Prop} (hc : crossed) (hi : u.ion = true)
    (h : raiseStackFault a u = .next t) : StackEndFrame crossed u t := by
  obtain ⟨-, -, -, -, rfl⟩ := raiseStackFault_eq_next.1 h
  constructor
  case ion => exact fun hn => absurd ⟨hi, hc⟩ hn
  case mem => exact fun b hb => Memory.readByte_writeWord_of_ne _ _ fun hb0 => hb ⟨hb0, hi, hc⟩
  all_goals intros; rfl

/-- A stack fault that is remembered: STKPEND alone (60_exceptions.md R165). -/
theorem setStkpend_frame {u : State} {crossed : Prop} (hc : crossed) (hi : u.ion = false)
    (hl : u.params.stkFaultLatch = true) : StackEndFrame crossed u (u.setStkpend true) := by
  constructor
  case stkpend => exact fun hn => absurd ⟨hi, hl, hc⟩ hn
  all_goals intros; rfl

theorem stackCheck_frame {a : Addr} {u t : State} {b : Bool} {crossed : Prop} (hc : crossed ↔ b = true)
    (h : stackCheck a { st := u, crossed := b } = .next t) : StackEndFrame crossed u t := by
  obtain ⟨-, rfl⟩ | ⟨hb, hi, h⟩ | ⟨hb, hi, hl, rfl⟩ | ⟨-, -, -, rfl⟩ := stackCheck_eq_next.1 h
  · exact .refl _ _
  · exact raiseStackFault_frame (hc.2 hb) hi h
  · exact setStkpend_frame (hc.2 hb) hi hl
  · exact .refl _ _

/-! ### SAV's stores, and where RET starts -/

theorem readByte_savMemory_of_ne {s : State} {a : Nat}
    (h : ∀ k, k < 5 → a / 2 ≠ (s.sp + 1 + BitVec.ofNat 15 k).toNat) :
    (savMemory s).readByte a = s.mem.readByte a := by
  have ne (k : Nat) (hk : k < 5) (d : Addr) (hd : 1 + BitVec.ofNat 15 k = d) : a / 2 ≠ (s.sp + d).toNat := by
    rw [← hd, ← BitVec.add_assoc]
    exact h k hk
  unfold savMemory
  rw [Memory.readByte_writeWord_of_ne _ _ (ne 4 (by decide) 5 rfl),
    Memory.readByte_writeWord_of_ne _ _ (ne 3 (by decide) 4 rfl),
    Memory.readByte_writeWord_of_ne _ _ (ne 2 (by decide) 3 rfl),
    Memory.readByte_writeWord_of_ne _ _ (ne 1 (by decide) 2 rfl),
    Memory.readByte_writeWord_of_ne _ _ (ne 0 (by decide) 1 rfl)]

theorem setSp_self {s : State} (h : s.spWritten = true) : s.setSp s.sp = s := by
  rw [State.setSp, ← h]

/-- A RET that completes pops from `retStart`, under both values of `RET_SP_FROM_FP` (42_stack.md R120). -/
theorem popBlock_of_execRet {s t : State} (h : execRet s = .next t) :
    popBlock s.pc (s.advance.setSp (retStart s)) = .next t := by
  obtain ⟨-, -, ⟨hp, h⟩ | ⟨hp, -, h⟩⟩ := execRet_eq_next.1 h
  · obtain ⟨hs, -⟩ := popBlock_eq_next.1 h
    rwa [show retStart s = s.advance.sp by simp [retStart, hp], setSp_self hs]
  · rwa [show retStart s = s.fp by simp [retStart, hp]]

/-- RET ends in the page crossing rule, from a state in which only registers have changed. -/
theorem execRet_frame {s t : State} (h : execRet s = .next t) :
    ∃ u : State, StackEndFrame (CrossesDown s.params (retStart s) 5) u t ∧
      u = { s with acs := u.acs, c := u.c, pc := u.pc, sp := u.sp, spWritten := u.spWritten, fp := u.fp,
                   fpWritten := u.fpWritten } := by
  obtain ⟨-, -, -, h⟩ := popBlock_eq_next.1 (popBlock_of_execRet h)
  exact ⟨_, stackCheck_frame crossesDown_five h, rfl⟩

/-! ### The parameters -/

theorem setDivCarry_params (s : State) : (setDivCarry s).params = s.params := by
  unfold setDivCarry
  cases s.params.divCarry <;> rfl

theorem divOverflowed_params {s t : State} (h : divOverflowed s = .next t) : t.params = s.params := by
  unfold divOverflowed at h
  split at h
  · cases h
  · cases h; rfl
  · cases h; rfl

/-- No instruction writes the parameters (assumption 7). -/
theorem exec_params {i : Instr} {s t : State} (h : exec i s = .next t) : t.params = s.params := by
  cases i with
  | mul => obtain ⟨-, -, rfl⟩ := execMul_eq_next.1 h; rfl
  | div =>
    obtain ⟨-, -, ⟨-, rfl⟩ | ⟨-, h⟩⟩ := execDiv_eq_next.1 h
    · exact setDivCarry_params _
    · exact divOverflowed_params (s := s.advance) h
  | mtsp ac => obtain ⟨-, -, rfl⟩ := execMtsp_eq_next.1 h; rfl
  | mfsp ac => obtain ⟨-, -, -, rfl⟩ := execMfsp_eq_next.1 h; rfl
  | mtfp ac => obtain ⟨-, -, rfl⟩ := execMtfp_eq_next.1 h; rfl
  | mffp ac => obtain ⟨-, -, -, rfl⟩ := execMffp_eq_next.1 h; rfl
  | psha ac =>
    obtain ⟨-, -, -, -, h⟩ := execPsha_eq_next.1 h
    exact (stackCheck_frame Iff.rfl h).params
  | popa ac =>
    obtain ⟨-, -, -, -, h⟩ := execPopa_eq_next.1 h
    exact (stackCheck_frame Iff.rfl h).params
  | sav =>
    obtain ⟨-, -, -, -, -, h⟩ := execSav_eq_next.1 h
    exact (stackCheck_frame Iff.rfl h).params
  | ret =>
    obtain ⟨u, hu, hs⟩ := execRet_frame h
    rw [hu.params, hs]
  | ldb acs acd => obtain ⟨-, -, -, rfl⟩ := execLdb_eq_next.1 h; rfl
  | stb acs acd => obtain ⟨-, -, -, rfl⟩ := execStb_eq_next.1 h; rfl
  | trap acs acd n =>
    obtain ⟨-, -, -, -, rfl⟩ | ⟨-, -, rfl⟩ := (execTrap_eq_next (acs := acs) (acd := acd) (number := n)).1 h
    · rfl
    · rfl

/-! ### Fetching -/

/-- 00_scope.md R9, with no remembered stack fault due. -/
theorem step_of_decode {s : State} {i : Instr} (hl : s.latchedFaultDue = false) (hw : s.hasWord s.pc = true)
    (hd : decode (s.mem.readWord s.pc) = .instr i) : step s = exec i s := by
  simp only [step, hl, Bool.false_eq_true, if_false, fetch_of hw, andThen_next, hd, execDecoded]

theorem withFetchWord_latchedFaultDue (s : State) (nbits w : Nat) :
    (s.withFetchWord nbits w).latchedFaultDue = false := by
  unfold State.withFetchWord State.latchedFaultDue
  cases s.params.stkFaultLatch <;> cases s.stkpend <;> cases s.ion <;> rfl

theorem withFetchWord_readWord_pc {s : State} (h : s.mem.wf) {w : Nat} (hw : w < 65536) :
    (s.withFetchWord 16 w).mem.readWord (s.withFetchWord 16 w).pc = BitVec.ofNat 16 w := by
  have hword := Memory.readWord_writeWord_self h s.pc (BitVec.ofNat 16 (w % 2 ^ 16))
  exact hword.trans (congrArg _ (Nat.mod_eq_of_lt hw))

end Sys2Proof.Machine
end

section
/-! PROOF. The statements about frames, the parameters, the fetch and reset. -/

namespace Sys2Proof.Machine

/-- Settles O38: PSHA stores its word and then ends in the page crossing rule. -/
theorem pshaFrame : Obligations.PshaFrame := by
  intro s t ac h
  obtain ⟨-, -, hs, -, h⟩ := execPsha_eq_next.1 h
  have f := stackCheck_frame crossesUp_one h
  exact ⟨f.ac, f.c, f.fp, f.fpWritten, f.spWritten.trans hs.symm, f.usermap, f.params, f.draws, f.ion, f.stkpend,
    fun a ha h0 => (f.mem a h0).trans (Memory.readByte_writeWord_of_ne _ _ ha)⟩

/-- Settles O39: POPA stores nothing before the page crossing rule. -/
theorem popaFrame : Obligations.PopaFrame := by
  intro s t ac h
  obtain ⟨-, -, hs, -, h⟩ := execPopa_eq_next.1 h
  have f := stackCheck_frame crossesDown_one h
  have hac (j : Acc) (hj : j ≠ ac) : t.ac j = s.ac j := by simp [f.ac, hj]
  exact ⟨hac, f.c, f.fp, f.fpWritten, f.spWritten.trans hs.symm, f.usermap, f.params, f.draws, f.ion, f.stkpend, f.mem⟩

/-- Settles O40: SAV stores five words, loads AC3 and FP, and ends in the page crossing rule. -/
theorem savFrame : Obligations.SavFrame := by
  intro s t h
  obtain ⟨-, -, hs, hf, -, h⟩ := execSav_eq_next.1 h
  have f := stackCheck_frame crossesUp_five h
  have hac (j : Acc) (hj : j ≠ .ac3) : t.ac j = s.ac j := by simp [f.ac, loadFrame, hj]
  exact ⟨hac, f.c, f.spWritten.trans hs.symm, f.fpWritten.trans hf.symm, f.usermap, f.params, f.draws, f.ion, f.stkpend,
    fun a ha h0 => (f.mem a h0).trans (readByte_savMemory_of_ne ha)⟩

/-- Settles O41: RET changes registers alone before the page crossing rule. -/
theorem retFrame : Obligations.RetFrame := by
  intro s t h
  obtain ⟨u, f, hu⟩ := execRet_frame h
  rw [hu] at f
  exact ⟨f.usermap, f.params, f.draws, f.ion, f.stkpend, f.mem⟩

/-- Settles O52: neither a remembered stack fault nor an instruction writes the parameters. -/
theorem parametersNeverChange : Obligations.ParametersNeverChange := by
  intro s t h
  obtain ⟨-, h⟩ | ⟨-, -, i, -, h⟩ := step_eq_next.1 h
  · obtain ⟨-, -, -, -, rfl⟩ := takeLatchedFault_eq_next.1 h
    rfl
  · exact exec_params h

/-- Settles O10. -/
theorem stepRunsTheDecodedInstruction : Obligations.StepRunsTheDecodedInstruction :=
  fun _ _ => step_of_decode

/-- Settles O12: the word at PC is the one placed, and no remembered stack fault is due. -/
theorem placedWordIsRunNext : Obligations.PlacedWordIsRunNext := by
  intro s w i hm hpc hw hd
  refine step_of_decode (withFetchWord_latchedFaultDue s 16 w) hpc ?_
  rw [withFetchWord_readWord_pc hm hw, hd]

/-- Settles O48: with the feature the save word 0o46 is stored and PC loaded, without it PC alone moves. -/
theorem trapFrame : Obligations.TrapFrame := by
  intro s acs acd n
  refine ⟨fun hf hm => by simp [exec, execTrap, gate, hf, hm], fun t h => ?_⟩
  obtain ⟨hf, -, -, -, rfl⟩ | ⟨-, -, rfl⟩ := (execTrap_eq_next (acs := acs) (acd := acd) (number := n)).1 h
  · refine ⟨rfl, fun a ha => Memory.readByte_writeWord_of_ne _ _ ?_⟩
    exact ha.resolve_right fun hn => Bool.noConfusion (hf.symm.trans hn)
  · exact ⟨rfl, fun _ _ => rfl⟩

/-- Settles O58. -/
theorem resetValues : Obligations.ResetValues := by
  have hac (i : Acc) : State.reset.ac i = 0 := by cases i <;> rfl
  have hmem (a : Addr) : State.reset.mem.readWord a = 0 := show joinBytes 0 0 = 0 by decide
  exact ⟨rfl, hac, rfl, rfl, rfl, rfl, rfl, rfl, rfl, rfl, hmem, rfl, by decide⟩

end Sys2Proof.Machine
end

section
/-! SUPPORT. What every instruction that completes does to the state, said once for all thirteen: its writes
(10_state.md), and then the page crossing rule (42_stack.md R122). -/

namespace Sys2Proof.Machine

/-! ### The feature and mode tests -/

theorem gate_of_absent {feature : Bool} {s : State} (hf : feature = false)
    (body : State → Host.Outcome State Fault Refusal) : gate feature s body = .refused .featureAbsent := by
  simp [gate, hf]

theorem gate_of_mapOn {feature : Bool} {s : State} (hf : feature = true) (hm : s.mapOn = true)
    (body : State → Host.Outcome State Fault Refusal) : gate feature s body = .refused .userMapEnabled := by
  simp [gate, hf, hm]

/-- Every instruction but TRAP begins with the tests of 30_encoding.md R68. -/
theorem exec_eq_gate {i : Instr} (hi : isTrap i = false) (s : State) :
    ∃ body, exec i s = gate (featureOf s.params i) s body := by
  cases i with
  | trap acs acd n => cases hi
  | _ =>
    simp only [exec, featureOf, execMul, execDiv, execMtsp, execMfsp, execMtfp, execMffp, execPsha, execPopa, execSav,
      execRet, execLdb, execStb]
    exact ⟨_, rfl⟩

/-- An instruction other than TRAP that completes has its feature, and the user map is off. -/
theorem runs_of_exec {i : Instr} {s t : State} (hi : isTrap i = false) (h : exec i s = .next t) :
    Runs (featureOf s.params i) s := by
  obtain ⟨body, hb⟩ := exec_eq_gate hi s
  obtain ⟨hf, hm, -⟩ := gate_eq_next.1 (hb.symm.trans h)
  exact ⟨hf, hm⟩

/-- With the user map off there is nothing for `disableUserMap` to change. -/
theorem usermap_eq_of_mapOn {s : State} (hm : s.mapOn = false) : s.usermap = (s.usermap && !s.params.mapped) := by
  unfold State.mapOn at hm
  cases hp : s.params.mapped <;> simp_all

/-! ### The invariant -/

/-- A store to a word that exists keeps the invariant; `m` is the memory that earlier stores have left. -/
theorem State.Inv.writeWord {s : State} {m : Memory} (h : (s.setMem m).Inv) {a : Addr} (ha : s.hasWord a = true)
    (v : Word) : (s.setMem (m.writeWord a v)).Inv := by
  obtain ⟨hwf, hcells, hmap, hpend⟩ := h
  have ha : a.toNat < s.params.memWords := of_decide_eq_true ha
  refine ⟨Memory.writeWord_wf hwf a v, fun x hx => ?_, hmap, hpend⟩
  show x.1 < 2 * s.params.memWords
  obtain hx | hx | hx := Memory.mem_writeWord hx
  · exact hcells x hx
  · omega
  · omega

theorem State.Inv.setStkpend {s : State} (h : s.Inv) {v : Bool} (hv : s.params.stkFaultLatch = false → v = false) :
    (s.setStkpend v).Inv := by
  obtain ⟨hwf, hcells, hmap, -⟩ := h
  exact ⟨hwf, hcells, hmap, hv⟩

/-- TRAP's write of USERMAP (60_exceptions.md R166) keeps it 0 on an unmapped machine. -/
theorem State.Inv.disableUserMap {s : State} (h : s.Inv) : (s.setUsermap (s.usermap && !s.params.mapped)).Inv := by
  obtain ⟨hwf, hcells, hmap, hpend⟩ := h
  exact ⟨hwf, hcells, fun hp => by simp [hmap hp], hpend⟩

theorem stackCheck_keeps_inv {a : Addr} {w : Work} {t : State} (hw : w.st.Inv) (h : stackCheck a w = .next t) :
    t.Inv := by
  obtain ⟨-, rfl⟩ | ⟨-, -, h⟩ | ⟨-, -, hl, rfl⟩ | ⟨-, -, -, rfl⟩ := stackCheck_eq_next.1 h
  · exact hw
  · obtain ⟨-, h0, -, -, rfl⟩ := raiseStackFault_eq_next.1 h
    exact hw.writeWord h0 _
  · exact hw.setStkpend fun hn => Bool.noConfusion (hl.symm.trans hn)
  · exact hw

/-! ### The writes of an instruction -/

/-- `u` is `s` after the writes of the instruction `i`, before the page crossing rule: ION is as it was, the user map is
off, only the named instructions write the carry, SP and FP, a pointer that is written is marked so, and the invariant
is kept (10_state.md R21, R23 to R26, R30). -/
structure InstrWrites (i : Instr) (s u : State) : Prop where
  ion : u.ion = s.ion
  usermap : u.usermap = (s.usermap && !s.params.mapped)
  c : u.c = s.c ∨ i = .div ∨ i = .ret
  sp : (u.sp = s.sp ∧ u.spWritten = s.spWritten) ∨
    (u.spWritten = true ∧ (usesStack i = true ∨ ∃ ac, i = .mtsp ac))
  fp : (u.fp = s.fp ∧ u.fpWritten = s.fpWritten) ∨
    (u.fpWritten = true ∧ (i = .sav ∨ i = .ret ∨ ∃ ac, i = .mtfp ac))
  inv : s.Inv → u.Inv

/-- Accumulators and PC may be written by every instruction. -/
theorem instrWrites_accs (i : Instr) {s : State} (hm : s.mapOn = false) (r : Accs) (p : Addr) :
    InstrWrites i s { s with acs := r, pc := p } :=
  ⟨rfl, usermap_eq_of_mapOn hm, .inl rfl, .inl ⟨rfl, rfl⟩, .inl ⟨rfl, rfl⟩, id⟩

theorem setDivCarry_frame {s t : State} {i j : Acc} {x y : Word}
    (h : t = setDivCarry ((s.advance.setAc i x).setAc j y)) :
    t = { s with acs := t.acs, c := t.c, draws := t.draws, pc := t.pc } := by
  subst h
  unfold setDivCarry
  split
  · rfl
  · rfl

theorem divOverflowed_frame {s t : State} (h : divOverflowed s = .next t) :
    t = { s with acs := t.acs, c := t.c, draws := t.draws } := by
  unfold divOverflowed at h
  split at h
  · cases h
  · cases h; rfl
  · cases h; rfl

/-- A DIV that completes writes accumulators, the carry, PC and the count of free values alone. -/
theorem execDiv_frame {s t : State} (h : execDiv s = .next t) :
    t = { s with acs := t.acs, c := t.c, draws := t.draws, pc := t.pc } := by
  obtain ⟨-, -, ⟨-, h⟩ | ⟨-, h⟩⟩ := execDiv_eq_next.1 h
  · exact setDivCarry_frame h
  · rw [divOverflowed_frame h]
    rfl

/-- SAV's five stores keep the invariant when its five words exist. -/
theorem savMemory_inv {s : State} (h : s.Inv)
    (hw : s.hasWord (s.sp + 1) = true ∧ s.hasWord (s.sp + 2) = true ∧ s.hasWord (s.sp + 3) = true ∧
      s.hasWord (s.sp + 4) = true ∧ s.hasWord (s.sp + 5) = true) : (s.setMem (savMemory s)).Inv := by
  obtain ⟨w1, w2, w3, w4, w5⟩ := hw
  have h1 : (s.setMem (s.mem.writeWord (s.sp + 1) (s.ac .ac0))).Inv := h.writeWord w1 _
  exact (((h1.writeWord w2 _).writeWord w3 _).writeWord w4 _).writeWord w5 _

/-- Everything an instruction that completes can do: its writes, and then the page crossing rule, which an instruction
that does not use the stack meets with nothing crossed (`ends`). -/
theorem exec_writes {i : Instr} {s t : State} (h : exec i s = .next t) :
    ∃ u b, InstrWrites i s u ∧ stackCheck s.pc { st := u, crossed := b } = .next t := by
  have ends (hw : InstrWrites i s t) : ∃ u b, InstrWrites i s u ∧ stackCheck s.pc { st := u, crossed := b } = .next t :=
    ⟨t, false, hw, rfl⟩
  cases i with
  | mul =>
    obtain ⟨-, hm, rfl⟩ := execMul_eq_next.1 h
    exact ends (instrWrites_accs _ hm _ _)
  | div =>
    obtain ⟨-, hm⟩ := runs_of_exec rfl h
    refine ends ?_
    rw [execDiv_frame h]
    exact ⟨rfl, usermap_eq_of_mapOn hm, .inr (.inl rfl), .inl ⟨rfl, rfl⟩, .inl ⟨rfl, rfl⟩, id⟩
  | mtsp ac =>
    obtain ⟨-, hm, rfl⟩ := execMtsp_eq_next.1 h
    exact ends ⟨rfl, usermap_eq_of_mapOn hm, .inl rfl, .inr ⟨rfl, .inr ⟨ac, rfl⟩⟩, .inl ⟨rfl, rfl⟩, id⟩
  | mfsp ac =>
    obtain ⟨-, hm, -, rfl⟩ := execMfsp_eq_next.1 h
    exact ends (instrWrites_accs _ hm _ _)
  | mtfp ac =>
    obtain ⟨-, hm, rfl⟩ := execMtfp_eq_next.1 h
    exact ends ⟨rfl, usermap_eq_of_mapOn hm, .inl rfl, .inl ⟨rfl, rfl⟩, .inr ⟨rfl, .inr (.inr ⟨ac, rfl⟩)⟩, id⟩
  | mffp ac =>
    obtain ⟨-, hm, -, rfl⟩ := execMffp_eq_next.1 h
    exact ends (instrWrites_accs _ hm _ _)
  | psha ac =>
    obtain ⟨-, hm, -, hw, h⟩ := execPsha_eq_next.1 h
    refine ⟨_, _, ?_, h⟩
    exact ⟨rfl, usermap_eq_of_mapOn hm, .inl rfl, .inr ⟨rfl, .inl rfl⟩, .inl ⟨rfl, rfl⟩, fun hs => hs.writeWord hw _⟩
  | popa ac =>
    obtain ⟨-, hm, -, -, h⟩ := execPopa_eq_next.1 h
    refine ⟨_, _, ?_, h⟩
    exact ⟨rfl, usermap_eq_of_mapOn hm, .inl rfl, .inr ⟨rfl, .inl rfl⟩, .inl ⟨rfl, rfl⟩, id⟩
  | sav =>
    obtain ⟨-, hm, -, -, hw, h⟩ := execSav_eq_next.1 h
    refine ⟨_, _, ?_, h⟩
    exact ⟨rfl, usermap_eq_of_mapOn hm, .inl rfl, .inr ⟨rfl, .inl rfl⟩, .inr ⟨rfl, .inl rfl⟩,
      fun hs => savMemory_inv hs hw⟩
  | ret =>
    obtain ⟨-, hm, -, h⟩ := popBlock_eq_next.1 (popBlock_of_execRet h)
    refine ⟨_, _, ?_, h⟩
    exact ⟨rfl, usermap_eq_of_mapOn hm, .inr (.inr rfl), .inr ⟨rfl, .inl rfl⟩, .inr ⟨rfl, .inr (.inl rfl)⟩, id⟩
  | ldb acs acd =>
    obtain ⟨-, hm, -, rfl⟩ := execLdb_eq_next.1 h
    exact ends (instrWrites_accs _ hm _ _)
  | stb acs acd =>
    obtain ⟨-, hm, hw, rfl⟩ := execStb_eq_next.1 h
    exact ends ⟨rfl, usermap_eq_of_mapOn hm, .inl rfl, .inl ⟨rfl, rfl⟩, .inl ⟨rfl, rfl⟩, fun hs => hs.writeWord hw _⟩
  | trap acs acd n =>
    obtain ⟨-, hw, -, -, rfl⟩ | ⟨-, hm, rfl⟩ := (execTrap_eq_next (acs := acs) (acd := acd) (number := n)).1 h
    · exact ends ⟨rfl, rfl, .inl rfl, .inl ⟨rfl, rfl⟩, .inl ⟨rfl, rfl⟩,
        fun hs => State.Inv.disableUserMap (hs.writeWord hw (zext16 s.pc))⟩
    · exact ends (instrWrites_accs _ hm _ _)

/-! ### What an instruction does to each register, and to the invariant -/

theorem exec_keeps_inv {i : Instr} {s t : State} (hs : s.Inv) (h : exec i s = .next t) : t.Inv := by
  obtain ⟨u, b, hu, ht⟩ := exec_writes h
  exact stackCheck_keeps_inv (hu.inv hs) ht

/-- The two stages as a frame: `StackEndFrame` names what the page crossing rule can still change. -/
theorem exec_frame {i : Instr} {s t : State} (h : exec i s = .next t) :
    ∃ u crossed, InstrWrites i s u ∧ StackEndFrame crossed u t := by
  obtain ⟨u, b, hu, ht⟩ := exec_writes h
  exact ⟨u, _, hu, stackCheck_frame Iff.rfl ht⟩

/-- An instruction may clear ION, never set it (60_exceptions.md R163, R164). -/
theorem exec_never_sets_ion {i : Instr} {s t : State} (h : exec i s = .next t) (ht : t.ion = true) : s.ion = true := by
  obtain ⟨u, crossed, hu, f⟩ := exec_frame h
  rw [← hu.ion]
  by_contra hi
  exact hi ((f.ion fun hc => hi hc.1).symm.trans ht)

theorem exec_usermap_eq {i : Instr} {s t : State} (h : exec i s = .next t) :
    t.usermap = (s.usermap && !s.params.mapped) := by
  obtain ⟨u, crossed, hu, f⟩ := exec_frame h
  rw [f.usermap, hu.usermap]

theorem exec_c_eq_or {i : Instr} {s t : State} (h : exec i s = .next t) : t.c = s.c ∨ i = .div ∨ i = .ret := by
  obtain ⟨u, crossed, hu, f⟩ := exec_frame h
  rw [f.c]
  exact hu.c

theorem exec_sp_eq_or {i : Instr} {s t : State} (h : exec i s = .next t) :
    (t.sp = s.sp ∧ t.spWritten = s.spWritten) ∨
      (t.spWritten = true ∧ (usesStack i = true ∨ ∃ ac, i = .mtsp ac)) := by
  obtain ⟨u, crossed, hu, f⟩ := exec_frame h
  rw [f.sp, f.spWritten]
  exact hu.sp

theorem exec_fp_eq_or {i : Instr} {s t : State} (h : exec i s = .next t) :
    (t.fp = s.fp ∧ t.fpWritten = s.fpWritten) ∨
      (t.fpWritten = true ∧ (i = .sav ∨ i = .ret ∨ ∃ ac, i = .mtfp ac)) := by
  obtain ⟨u, crossed, hu, f⟩ := exec_frame h
  rw [f.fp, f.fpWritten]
  exact hu.fp

/-! ### Steps -/

/-- A remembered stack fault that is due is taken instead of a fetch (60_exceptions.md R165). -/
theorem step_of_latchedFaultDue {s : State} (hl : s.latchedFaultDue = true) : step s = takeLatchedFault s := by
  rw [step, if_pos hl]

theorem takeLatchedFault_eq (s : State) :
    takeLatchedFault s =
      raiseStackFault (Config.freeAddr s.draws) ((s.setDraws (s.draws + 1)).setStkpend false) := rfl

/-- Stack fault entry that completes does what 60_exceptions.md R164 says, on canonical memory. -/
theorem stackFaultEntered_of_raiseStackFault {a : Addr} {u t : State} (hwf : u.mem.wf)
    (h : raiseStackFault a u = .next t) : StackFaultEntered a u t := by
  obtain ⟨-, -, -, -, rfl⟩ := raiseStackFault_eq_next.1 h
  exact ⟨rfl, fun b => Memory.readWord_writeWord hwf 0 b (zext16 a)⟩

theorem takeLatchedFault_frame {s t : State} (h : takeLatchedFault s = .next t) :
    t = { s with ion := false, stkpend := false, pc := t.pc, mem := t.mem, draws := t.draws } := by
  obtain ⟨-, -, -, -, rfl⟩ := takeLatchedFault_eq_next.1 h
  rfl

/-- Taking a remembered stack fault keeps the invariant. -/
theorem takeLatchedFault_keeps_inv {s t : State} (hs : s.Inv) (h : takeLatchedFault s = .next t) : t.Inv := by
  obtain ⟨-, h0, -, -, rfl⟩ := takeLatchedFault_eq_next.1 h
  exact State.Inv.writeWord (s := s.setStkpend false) (m := s.mem) (hs.setStkpend fun _ => rfl) h0 _

/-! ### Reading an unwritten stack pointer -/

theorem push_of_unwritten {w : Work} (v : Word) (hs : w.st.spWritten = false) : push v w = .fault .unwrittenSP := by
  simp [push, hs]

theorem pop_of_unwritten {w : Work} (hs : w.st.spWritten = false) : pop w = .fault .unwrittenSP := by
  simp [pop, hs]

end Sys2Proof.Machine
end

section
/-! SUPPORT. A memory in canonical form is determined by its words (20_memory.md R40; assumption 6). -/

namespace Sys2Proof.Machine

theorem lookupCell_of_mem {cs : List Host.Cell} (hs : cs.Pairwise fun x y => x.1 < y.1) {x : Host.Cell} (hx : x ∈ cs) :
    lookupCell cs x.1 = x.2 := by
  induction cs with
  | nil => cases hx
  | cons c cs ih =>
    obtain ⟨hc, hs⟩ := List.pairwise_cons.1 hs
    obtain rfl | hx := List.mem_cons.1 hx
    · exact if_pos rfl
    · exact (if_neg (hc x hx).ne).trans (ih hs hx)

theorem mem_of_lookupCell_ne {cs : List Host.Cell} {a : Nat} (h : lookupCell cs a ≠ Memory.unlisted) :
    (a, lookupCell cs a) ∈ cs := by
  induction cs with
  | nil => exact absurd rfl h
  | cons c cs ih =>
    obtain ⟨k, v⟩ := c
    by_cases hk : k = a
    · simp [lookupCell, hk]
    · simp only [lookupCell, if_neg hk] at h ⊢
      exact List.mem_cons_of_mem _ (ih h)

/-- The two bytes of a word are read back from it, so a byte below 2^16 is read from the word that holds it. -/
theorem readByte_eq_of_readWord_eq {m n : Memory} (h : ∀ a : Addr, m.readWord a = n.readWord a) {b : Nat}
    (hb : b < 65536) : m.readByte b = n.readByte b := by
  have ha : (BitVec.ofNat 15 (b / 2)).toNat = b / 2 := by
    rw [BitVec.toNat_ofNat]
    omega
  have hw := h (BitVec.ofNat 15 (b / 2))
  have hl := congrArg leftByte hw
  have hr := congrArg rightByte hw
  simp only [Memory.readWord, ha, leftByte_joinBytes, rightByte_joinBytes] at hl hr
  obtain hb | hb : b = 2 * (b / 2) ∨ b = 2 * (b / 2) + 1 := by omega
  · rw [hb, hl]
  · rw [hb, hr]

/-- A cell listed in a canonical memory reads as its byte, so a memory that reads alike lists it too. -/
theorem cells_subset_of_readWord_eq {m n : Memory} (hm : m.wf) (h : ∀ a : Addr, m.readWord a = n.readWord a) :
    m.cells ⊆ n.cells := by
  intro x hx
  obtain ⟨hlisted, hlt⟩ := hm.2 x hx
  have hn : lookupCell n.cells x.1 = x.2 :=
    (readByte_eq_of_readWord_eq h hlt).symm.trans (lookupCell_of_mem hm.1 hx)
  have hmem : (x.1, lookupCell n.cells x.1) ∈ n.cells := mem_of_lookupCell_ne (by rwa [hn])
  rwa [hn] at hmem

/-- A rising list of cells is determined by the set of its cells. -/
theorem cells_eq_of_subset {cs ds : List Host.Cell} (hc : cs.Pairwise fun x y => x.1 < y.1)
    (hd : ds.Pairwise fun x y => x.1 < y.1) (hcd : cs ⊆ ds) (hdc : ds ⊆ cs) : cs = ds := by
  have : Std.Antisymm fun x y : Host.Cell => x.1 < y.1 := ⟨fun _ _ hxy hyx => absurd hxy hyx.asymm⟩
  have : Std.Irrefl fun x y : Host.Cell => x.1 < y.1 := ⟨fun _ => lt_irrefl _⟩
  exact List.Subset.antisymm_of_pairwise hc hd hcd hdc

end Sys2Proof.Machine
end

section
/-! PROOF. The statements about the registers, the invariant and the remembered stack fault (10_state.md). -/

namespace Sys2Proof.Machine

/-- Settles O56: a remembered stack fault and every instruction keep the invariant. -/
theorem stepKeepsInvariant : Obligations.StepKeepsInvariant := by
  intro s t hs h
  obtain ⟨-, h⟩ | ⟨-, -, i, -, h⟩ := step_eq_next.1 h
  · exact takeLatchedFault_keeps_inv hs h
  · exact exec_keeps_inv hs h

/-- Settles O37: the fault is stack fault entry with a drawn address, from the state with STKPEND cleared. -/
theorem rememberedFaultIsTaken : Obligations.RememberedFaultIsTaken := by
  intro s hl
  rw [step_of_latchedFaultDue hl, takeLatchedFault_eq]
  have hmap : ((s.setDraws (s.draws + 1)).setStkpend false).mapOn = s.mapOn := rfl
  refine ⟨fun hm => raiseStackFault_of_mapOn _ (hmap.trans hm),
    fun hm h => raiseStackFault_of_absent _ (hmap.trans hm) h, fun hm h0 h3 hb => ?_, fun hm h0 h3 hb hwf => ?_⟩
  · exact (raiseStackFault_of _ (hmap.trans hm) h0 h3).trans (if_pos hb)
  · have ht := raiseStackFault_eq_next (a := Config.freeAddr s.draws).2 ⟨hmap.trans hm, h0, h3, hb, rfl⟩
    exact ⟨_, ht, stackFaultEntered_of_raiseStackFault (u := (s.setDraws (s.draws + 1)).setStkpend false) hwf ht⟩

/-- Settles O50. -/
theorem ionIsNeverSet : Obligations.IonIsNeverSet := by
  intro s t h ht
  obtain ⟨-, h⟩ | ⟨-, -, i, -, h⟩ := step_eq_next.1 h
  · rw [takeLatchedFault_frame h] at ht
    cases ht
  · exact exec_never_sets_ion h ht

/-- Settles O51: a step leaves USERMAP as `disableUserMap` would, and where the map is off that changes nothing. -/
theorem userMapIsOffAfterAStep : Obligations.UserMapIsOffAfterAStep := by
  refine ⟨fun s t h => ?_, fun i s t h hne => ?_⟩
  · have ht : t.usermap = (s.usermap && !s.params.mapped) := by
      obtain ⟨-, h⟩ | ⟨-, -, i, -, h⟩ := step_eq_next.1 h
      · obtain ⟨hm, -⟩ := takeLatchedFault_eq_next.1 h
        rw [takeLatchedFault_frame h]
        exact usermap_eq_of_mapOn hm
      · exact exec_usermap_eq h
    exact ⟨fun hp => by simp [ht, hp], fun hp => by simp [ht, hp]⟩
  · by_contra hi
    obtain ⟨-, hm⟩ := runs_of_exec (Bool.eq_false_iff.2 hi) h
    exact hne ((exec_usermap_eq h).trans (usermap_eq_of_mapOn hm).symm)

/-- Settles O53: a pointer's mark is kept or set. -/
theorem writtenMarksAreNeverLost : Obligations.WrittenMarksAreNeverLost := by
  intro s t h
  obtain ⟨-, h⟩ | ⟨-, -, i, -, h⟩ := step_eq_next.1 h
  · rw [takeLatchedFault_frame h]
    exact ⟨id, id⟩
  · exact ⟨fun hs => (exec_sp_eq_or h).elim (fun k => k.2.trans hs) And.left,
      fun hf => (exec_fp_eq_or h).elim (fun k => k.2.trans hf) And.left⟩

/-- Settles O54. -/
theorem carryIsWrittenOnlyByDivAndRet : Obligations.CarryIsWrittenOnlyByDivAndRet :=
  fun _ _ _ h hd hr => (exec_c_eq_or h).resolve_right (not_or.2 ⟨hd, hr⟩)

/-- Settles O55: an instruction outside the list cannot be in the second case of `exec_sp_eq_or` or `exec_fp_eq_or`. -/
theorem pointersAreWrittenOnlyByTheirInstructions : Obligations.PointersAreWrittenOnlyByTheirInstructions := by
  intro i s t h
  refine ⟨fun hu hm => (exec_sp_eq_or h).resolve_right ?_, fun hs hr hm => (exec_fp_eq_or h).resolve_right ?_⟩
  · rintro ⟨-, hi | ⟨ac, hi⟩⟩
    · exact Bool.noConfusion (hu.symm.trans hi)
    · exact hm ac hi
  · rintro ⟨-, hi | hi | ⟨ac, hi⟩⟩
    · exact hs hi
    · exact hr hi
    · exact hm ac hi

/-- Settles O59: two canonical memories that read alike list the same cells. -/
theorem equalReadsMakeEqualMemories : Obligations.EqualReadsMakeEqualMemories := by
  rintro ⟨cs⟩ ⟨ds⟩ hm hn h
  have hcd : cs ⊆ ds := cells_subset_of_readWord_eq hm h
  have hdc : ds ⊆ cs := cells_subset_of_readWord_eq hn fun a => (h a).symm
  exact congrArg Memory.mk (cells_eq_of_subset hm.1 hn.1 hcd hdc)

/-- Settles O14: every instruction but TRAP begins with `gate`. -/
theorem featureAndModeTests : Obligations.FeatureAndModeTests := by
  intro i s hi
  obtain ⟨body, hb⟩ := exec_eq_gate hi s
  rw [hb]
  exact ⟨fun hf => gate_of_absent hf body, fun hf hm => gate_of_mapOn hf hm body⟩

/-- Settles O26: each of the five reaches its first reading of SP. -/
theorem unwrittenStackPointerFaults : Obligations.UnwrittenStackPointerFaults := by
  intro s ac ⟨hf, hm⟩ hs
  have hpush (v : Word) : push v (beginWork s.advance) = .fault .unwrittenSP := push_of_unwritten v hs
  have hpop : pop (beginWork s.advance) = .fault .unwrittenSP := pop_of_unwritten hs
  simp only [exec, execMfsp, execPsha, execPopa, execSav, execRet, gate_of_runs hf hm, hs, hpush, hpop,
    Bool.false_eq_true, if_false, andThen_fault, true_and]
  intro hr
  have hreload : reloadSp s.advance = .next s.advance := reloadSp_eq_next.2 (.inl ⟨hr, rfl⟩)
  rw [hreload, andThen_next, popBlock, hpop, andThen_fault]

/-- Settles O57. -/
theorem resetMeetsInvariant : Obligations.ResetMeetsInvariant :=
  ⟨reset_mem_wf, fun _ hx => absurd hx List.not_mem_nil, fun _ => rfl, fun _ => rfl⟩

end Sys2Proof.Machine
end

section
/-! SUPPORT. An access to a word that does not exist (20_memory.md R40), and what the halves of a word and the byte
pointers of 20_memory.md R42 and R43 are as numbers. -/

namespace Sys2Proof.Machine

/-! ### A fetch, and words that do not exist -/

theorem memRead_of_absent {s : State} {a : Addr} (hm : s.mapOn = false) (ha : s.hasWord a = false) :
    memRead a s = .refused .noSuchMemory := by
  simp [memRead, hm, ha]

theorem fetch_of_absent {s : State} (h : s.hasWord s.pc = false) : fetch s = .refused .noSuchMemory := by
  simp [fetch, h]

/-- 00_scope.md R9, with no remembered stack fault due. -/
theorem step_of_latchedFaultDue_eq_false {s : State} (hl : s.latchedFaultDue = false) :
    step s = andThen (fetch s) fun w => execDecoded (decode w) s := by
  rw [step, hl, if_neg Bool.false_ne_true]

/-- Pops can begin from `w`, and one of the `n` words they read, from SP downwards, does not exist. -/
structure PopsAbsentWord (n : Nat) (w : Work) : Prop where
  spWritten : w.st.spWritten = true
  mapOff : w.st.mapOn = false
  absent : ∃ k, k < n ∧ w.st.hasWord (w.st.sp - BitVec.ofNat 15 k) = false

theorem not_popsAbsentWord_zero (w : Work) : ¬ PopsAbsentWord 0 w := fun ⟨_, _, k, hk, _⟩ => Nat.not_lt_zero k hk

/-- Either the first pop is refused, or the absent word is among those of the pops that follow. -/
theorem andThen_pop_of_absent {n : Nat} {w : Work} {f : Word × Work → Host.Outcome State Fault Refusal}
    (h : PopsAbsentWord (n + 1) w) (hf : ∀ r : Word × Work, PopsAbsentWord n r.2 → f r = .refused .noSuchMemory) :
    andThen (pop w) f = .refused .noSuchMemory := by
  obtain ⟨hs, hm, k, hk, ha⟩ := h
  cases h0 : w.st.hasWord w.st.sp with
  | false => rw [pop_of_absent hs hm h0, andThen_refused]
  | true =>
    rw [pop_of hs hm h0, andThen_next]
    cases k with
    | zero => rw [show w.st.sp - BitVec.ofNat 15 0 = w.st.sp from BitVec.sub_zero _, h0] at ha; cases ha
    | succ j =>
      refine hf _ ⟨rfl, hm, j, Nat.lt_of_succ_lt_succ hk, ?_⟩
      rw [← ha, Nat.add_comm j 1, BitVec.ofNat_add, ← BitVec.sub_sub]
      rfl

/-- RET's five pops (42_stack.md R120), one of whose words does not exist. -/
theorem popBlock_of_absent {a : Addr} {s : State} (h : PopsAbsentWord 5 (beginWork s)) :
    popBlock a s = .refused .noSuchMemory :=
  andThen_pop_of_absent h fun _ h => andThen_pop_of_absent h fun _ h => andThen_pop_of_absent h fun _ h =>
    andThen_pop_of_absent h fun _ h => andThen_pop_of_absent h fun r h => absurd h (not_popsAbsentWord_zero r.2)

/-- Where RET finds SP once it is settled, if the registers it reads are written (42_stack.md R120). -/
theorem reloadSp_of {s : State} (hs : s.params.retSpFromFp = false → s.spWritten = true)
    (hf : s.params.retSpFromFp = true → s.fpWritten = true) : reloadSp s = .next (s.setSp (retStart s)) := by
  cases hp : s.params.retSpFromFp with
  | false =>
    have hstart : retStart s = s.sp := by simp [retStart, hp]
    rw [hstart, setSp_self (hs hp)]
    exact reloadSp_eq_next.2 (.inl ⟨hp, rfl⟩)
  | true =>
    have hstart : retStart s = s.fp := by simp [retStart, hp]
    rw [hstart]
    exact reloadSp_eq_next.2 (.inr ⟨hp, hf hp, rfl⟩)

/-- Instruction trap entry (60_exceptions.md R166), when one of its two words does not exist. -/
theorem raiseInstructionTrap_of_absent {s : State} (a : Addr) (h : (s.hasWord 38 && s.hasWord 39) = false) :
    raiseInstructionTrap a s = .refused .noSuchMemory := by
  refine takeEvent_of_absent (disableUserMap_mapOn s) ?_
  rw [disableUserMap_eq]
  exact h

/-! ### Bytes as numbers -/

theorem leftByte_toNat (w : Word) : (leftByte w).toNat = w.toNat / 256 := by
  have := w.isLt
  rw [leftByte, BitVec.toNat_ofNat]
  omega

theorem rightByte_toNat (w : Word) : (rightByte w).toNat = w.toNat % 256 := by
  rw [rightByte, BitVec.toNat_ofNat]
  omega

theorem joinBytes_toNat (l r : Byte) : (joinBytes l r).toNat = l.toNat * 256 + r.toNat := by
  have := l.isLt
  have := r.isLt
  rw [joinBytes, BitVec.toNat_ofNat]
  omega

theorem bytePtrSelect_eq_iff {bp : Word} {sel : BitVec 1} : bytePtrSelect bp = sel ↔ bp.toNat % 2 = sel.toNat := by
  rw [← BitVec.toNat_inj, bytePtrSelect, BitVec.toNat_ofNat, pow_one, Nat.mod_mod]

/-- The byte LDB reads (43_byte.md R141), for both values of `BYTE_SELECT_LEFT`. -/
theorem selectByte_toNat (p : Params) (bp w : Word) :
    (selectByte p (bytePtrSelect bp) w).toNat =
      if bp.toNat % 2 = p.byteSelectLeft.toNat then w.toNat / 256 else w.toNat % 256 := by
  simp only [selectByte, bytePtrSelect_eq_iff, apply_ite BitVec.toNat, leftByte_toNat, rightByte_toNat]

/-- The word STB writes (43_byte.md R142), for both values of `BYTE_SELECT_LEFT`. -/
theorem replaceByte_toNat (p : Params) (bp v w : Word) :
    (replaceByte p (bytePtrSelect bp) (rightByte v) w).toNat =
      if bp.toNat % 2 = p.byteSelectLeft.toNat then v.toNat % 256 * 256 + w.toNat % 256
      else w.toNat / 256 * 256 + v.toNat % 256 := by
  simp only [replaceByte, bytePtrSelect_eq_iff, apply_ite BitVec.toNat, joinBytes_toNat, leftByte_toNat,
    rightByte_toNat]

end Sys2Proof.Machine
end

section
/-! PROOF. The statements about memory and the byte instructions (20_memory.md, 43_byte.md). -/

namespace Sys2Proof.Machine

/-- Settles O13: STB leaves PC at the word it has stored. -/
theorem storeIntoNextInstructionIsFetched : Obligations.StoreIntoNextInstructionIsFetched := by
  intro s t acs acd hwf hptr h
  obtain ⟨-, -, hw, rfl⟩ := execStb_eq_next.1 h
  rw [hptr] at hw ⊢
  exact (fetch_of hw).trans (congrArg _ (Memory.readWord_writeWord_self hwf _ _))

/-- Settles O11. -/
theorem stepRefusesWordsWithoutMeaning : Obligations.StepRefusesWordsWithoutMeaning := by
  intro s hl
  rw [step_of_latchedFaultDue_eq_false hl]
  refine ⟨fun hw hd => ?_, fun hw hd => ?_, fun hw => ?_⟩
  · rw [fetch_of hw, andThen_next, hd, execDecoded]
  · rw [fetch_of hw, andThen_next, hd, execDecoded]
  · rw [fetch_of_absent hw, andThen_refused]

/-- Settles O15: the first access to an absent word ends the instruction. -/
theorem absentMemoryIsRefused : Obligations.AbsentMemoryIsRefused := by
  intro s acs acd n
  simp only [exec]
  refine ⟨fun ⟨hf, hm⟩ hs hw => ?_, fun ⟨hf, hm⟩ hs hw => ?_, fun ⟨hf, hm⟩ hw => ?_, fun ⟨hf, hm⟩ hw => ?_,
    fun ⟨hf, hm⟩ hs hfp hw => ?_, fun ⟨hf, hm⟩ hs hfp hw => ?_, fun hf hw => ?_⟩
  · rw [execPsha, gate_of_runs hf hm, push_of_absent (w := beginWork s.advance) _ hs hm hw, andThen_refused]
  · rw [execPopa, gate_of_runs hf hm, pop_of_absent (w := beginWork s.advance) hs hm hw, andThen_refused]
  · rw [execLdb, gate_of_runs hf hm, memRead_of_absent hm hw, andThen_refused]
  · rw [execStb, gate_of_runs hf hm, memRead_of_absent hm hw, andThen_refused]
  · have hpush : pushAll (returnBlock s) (beginWork s.advance) = .refused .noSuchMemory :=
      pushAll_of_absent _ _ hs hm hw
    rw [execSav, gate_of_runs hf hm, if_pos hs, if_pos hfp, hpush, andThen_refused]
  · rw [execRet, gate_of_runs hf hm, reloadSp_of (s := s.advance) hs hfp, andThen_next]
    exact popBlock_of_absent ⟨rfl, hm, hw⟩
  · rw [execTrap, if_pos hf, raiseInstructionTrap_of_absent _ hw]

/-- Settles O42: the byte read goes to the destination, zero extended. -/
theorem ldbResult : Obligations.LdbResult := by
  intro s acs acd ⟨hf, hm⟩ hw
  refine ⟨_, execLdb_eq_next.2 ⟨hf, hm, hw, rfl⟩, rfl, fun j hj => by simp [hj], ?_⟩
  rw [State.setAc_ac, if_pos rfl, BitVec.toNat_setWidth_of_le (by decide), selectByte_toNat, bytePtrWord]

/-- Settles O43: the word is written back with the named half replaced. -/
theorem stbResult : Obligations.StbResult := by
  intro s acs acd ⟨hf, hm⟩ hwf hw
  refine ⟨_, execStb_eq_next.2 ⟨hf, hm, hw, rfl⟩, rfl, fun b hb => Memory.readWord_writeWord_of_ne _ _ hb, ?_⟩
  rw [State.setMem_mem, bytePtrWord, Memory.readWord_writeWord_self hwf, replaceByte_toNat]

end Sys2Proof.Machine
end

section
/-! SUPPORT. The two forms of an instruction word (30_encoding.md R61, R65, R66): their fields, the words they make as
numbers, and what the decoder reads from them. -/

namespace Sys2Proof

open Machine (isTrap)

/-! ### Accumulator specifiers -/

theorem Acc.number_lt (a : Acc) : a.number < 4 := by cases a <;> decide

@[simp] theorem Acc.ofField_number (a : Acc) : Acc.ofField a.number = a := by cases a <;> rfl

theorem Acc.number_ofField {n : Nat} (h : n < 4) : (Acc.ofField n).number = n := by interval_cases n <;> rfl

/-! ### Fields of a word -/

theorem dg_lt (w : Word) (first last : Nat) : dg w first last < 2 ^ (last + 1 - first) :=
  Nat.mod_lt _ (Nat.two_pow_pos _)

/-- Bit 0 is the first of bits 0-2. -/
theorem dg_bit0 (w : Word) : dg w 0 0 = dg w 0 2 / 4 := by
  have := w.isLt
  simp only [dg]
  omega

/-- A word of the I/O form to device 1 (30_encoding.md R61, R64), with its three other fields; the byte form is the
same with ACS for the control field (R65). -/
structure IoForm (w : Word) (ac transfer control : Nat) : Prop where
  classBits : dg w 0 2 = 3
  acField : dg w 3 4 = ac
  transferField : dg w 5 7 = transfer
  controlField : dg w 8 9 = control
  device : dg w 10 15 = 1

/-- A word of the trap form (30_encoding.md R66), with its three operand fields. -/
structure TrapForm (w : Word) (acs acd number : Nat) : Prop where
  bit0 : dg w 0 0 = 1
  acsField : dg w 1 2 = acs
  acdField : dg w 3 4 = acd
  numberField : dg w 5 11 = number
  marker : dg w 12 15 = 8

theorem ioForm_ofNat {ac t c : Nat} (hac : ac < 4) (ht : t < 8) (hc : c < 4) :
    IoForm (BitVec.ofNat 16 (ioWord ac t c)) ac t c := by
  constructor <;> simp only [dg, ioWord, BitVec.toNat_ofNat] <;> omega

theorem IoForm.toNat {w : Word} {ac t c : Nat} (h : IoForm w ac t c) : w.toNat = ioWord ac t c := by
  obtain ⟨hclass, rfl, rfl, rfl, hdev⟩ := h
  have := w.isLt
  simp only [dg, ioWord] at *
  omega

theorem trapForm_encode (acs acd : Acc) {n : Nat} (hn : n < 128) :
    TrapForm (encode (.trap acs acd n)) acs.number acd.number n := by
  have := acs.number_lt
  have := acd.number_lt
  constructor <;> simp only [dg, encode, encodeNat, BitVec.toNat_ofNat] <;> omega

theorem TrapForm.toNat {w : Word} {acs acd n : Nat} (h : TrapForm w acs acd n) :
    w.toNat = 0x8008 + acs * 0x2000 + acd * 0x800 + n * 0x10 := by
  obtain ⟨hbit, rfl, rfl, rfl, hmark⟩ := h
  have := w.isLt
  simp only [dg] at *
  omega

/-! ### The decoder (30_encoding.md R68) -/

theorem IoForm.decode_eq {w : Word} {ac t c : Nat} (h : IoForm w ac t c) : decode w = decodeDevice1 ac t c := by
  obtain ⟨hclass, rfl, rfl, rfl, hdev⟩ := h
  simp [decode, dg_bit0, hclass, hdev]

theorem decode_ioWord {ac t c n : Nat} (hac : ac < 4) (ht : t < 8) (hc : c < 4) (hn : n = ioWord ac t c) :
    decode (BitVec.ofNat 16 n) = decodeDevice1 ac t c :=
  hn ▸ (ioForm_ofNat hac ht hc).decode_eq

theorem TrapForm.decode_eq {w : Word} {acs acd n : Nat} (h : TrapForm w acs acd n) :
    decode w = .instr (.trap (Acc.ofField acs) (Acc.ofField acd) n) := by
  obtain ⟨hbit, rfl, rfl, rfl, hmark⟩ := h
  simp [decode, hbit, hmark]

/-- Every word has one of the two forms or is out of scope (30_encoding.md R72). -/
theorem word_cases (w : Word) :
    IoForm w (dg w 3 4) (dg w 5 7) (dg w 8 9) ∨ TrapForm w (dg w 1 2) (dg w 3 4) (dg w 5 11) ∨
      (¬ (dg w 0 2 = 3 ∧ dg w 10 15 = 1) ∧ ¬ (dg w 0 0 = 1 ∧ dg w 12 15 = 8) ∧ decode w = .notInScope) := by
  by_cases hio : dg w 0 2 = 3 ∧ dg w 10 15 = 1
  · exact .inl ⟨hio.1, rfl, rfl, rfl, hio.2⟩
  by_cases htrap : dg w 0 0 = 1 ∧ dg w 12 15 = 8
  · exact .inr (.inl ⟨htrap.1, rfl, rfl, rfl, htrap.2⟩)
  refine .inr (.inr ⟨hio, htrap, ?_⟩)
  rw [decode]
  split_ifs <;> tauto

/-- A word that decodes to an instruction is a device-1 word with that code, or a TRAP word. -/
theorem decode_eq_instr {w : Word} {i : Instr} (h : decode w = .instr i) :
    (IoForm w (dg w 3 4) (dg w 5 7) (dg w 8 9) ∧ decodeDevice1 (dg w 3 4) (dg w 5 7) (dg w 8 9) = .instr i) ∨
      (TrapForm w (dg w 1 2) (dg w 3 4) (dg w 5 11) ∧
        i = .trap (Acc.ofField (dg w 1 2)) (Acc.ofField (dg w 3 4)) (dg w 5 11)) := by
  obtain hw | hw | ⟨-, -, hw⟩ := word_cases w
  · exact .inl ⟨hw, hw.decode_eq.symm.trans h⟩
  · exact .inr ⟨hw, Decoded.instr.inj (h.symm.trans hw.decode_eq)⟩
  · exact nomatch hw.symm.trans h

/-! ### The device-1 codes (30_encoding.md R69 to R71) -/

theorem decodeDevice1_ne_notInScope (ac t c : Nat) : decodeDevice1 ac t c ≠ .notInScope := by
  fun_cases decodeDevice1 <;> simp

/-- The combinations of the table of 30_encoding.md R71. -/
theorem decodeDevice1_eq_undefined_iff {ac t c : Nat} (ht : t < 8) (hc : c < 4) :
    decodeDevice1 ac t c = .undefinedDevice1Code ↔
      ((t = 0 ∨ t = 2 ∨ t = 3 ∨ t = 5) ∧ (c = 1 ∨ c = 3)) ∨ (t = 6 ∧ (c = 0 ∨ c = 2)) ∨
        (t = 6 ∧ (c = 1 ∨ c = 3) ∧ ac ≠ 2) ∨ t = 7 := by
  interval_cases t <;> interval_cases c <;> simp [decodeDevice1]

/-- What a device-1 code says of the instruction read from it: its own fields, but for the AC field of SAV and RET. -/
theorem decodeDevice1_eq_instr {ac t c : Nat} {i : Instr} (hac : ac < 4) (hc : c < 4)
    (h : decodeDevice1 ac t c = .instr i) :
    i.wf = true ∧ (i ≠ .sav → i ≠ .ret → encodeNat i = ioWord ac t c) ∧ (i = .sav → t = 5 ∧ c = 0) ∧
      (i = .ret → t = 5 ∧ c = 2) := by
  revert h
  fun_cases decodeDevice1 <;> intro h <;> cases h <;>
    simp_all [Instr.wf, encodeNat, Transfer.code, Control.code, Acc.number_ofField]

/-- The fields of the word of every instruction but TRAP, and that they are read back. -/
theorem encodeNat_eq_ioWord {i : Instr} (hi : isTrap i = false) :
    ∃ ac t c, ac < 4 ∧ t < 8 ∧ c < 4 ∧ encodeNat i = ioWord ac t c ∧ decodeDevice1 ac t c = .instr i := by
  cases i with
  | trap => cases hi
  | _ => exact ⟨_, _, _, by simp [Acc.number_lt], by decide, by simp [Acc.number_lt, Control.code], rfl, by
      simp [decodeDevice1, Transfer.code, Control.code]⟩

end Sys2Proof
end

section
/-! PROOF. The statements about the encoding (30_encoding.md). -/

namespace Sys2Proof

open Machine (isTrap)

/-- Settles O2: the fields of the encoded word are read back, for TRAP and for the device-1 codes. -/
theorem decodeOfEncodeIsIdentity : Obligations.DecodeOfEncodeIsIdentity := by
  intro i hwf
  cases hi : isTrap i with
  | true =>
    cases i with
    | trap acs acd n => simpa using (trapForm_encode acs acd (of_decide_eq_true hwf)).decode_eq
    | _ => cases hi
  | false =>
    obtain ⟨ac, t, c, hac, ht, hc, hword, hcode⟩ := encodeNat_eq_ioWord hi
    exact (decode_ioWord hac ht hc hword).trans hcode

/-- Settles O3: a word is fixed by its form and fields, and all of them but the AC field of SAV and RET are in the
instruction. -/
theorem encodeOfDecodeIsTheWord : Obligations.EncodeOfDecodeIsTheWord := by
  intro w i h
  have hac : dg w 3 4 < 4 := dg_lt w 3 4
  have word {n : Nat} (hn : n = w.toNat) : BitVec.ofNat 16 n = w := by rw [hn, BitVec.ofNat_toNat, BitVec.setWidth_eq]
  obtain ⟨hw, hcode⟩ | ⟨hw, rfl⟩ := decode_eq_instr h
  · obtain ⟨hwf, henc, hsav, hret⟩ := decodeDevice1_eq_instr hac (dg_lt w 8 9) hcode
    refine ⟨hwf, fun hs hr => word ((henc hs hr).trans hw.toNat.symm), fun hi => ⟨_, hac, ?_⟩, fun hi => ⟨_, hac, ?_⟩⟩
    · rw [hw.toNat, ioWord, (hsav hi).1, (hsav hi).2]
      omega
    · rw [hw.toNat, ioWord, (hret hi).1, (hret hi).2]
      omega
  · refine ⟨decide_eq_true (dg_lt w 5 11), fun _ _ => word ?_, nofun, nofun⟩
    rw [encodeNat, Acc.number_ofField hac, Acc.number_ofField (dg_lt w 1 2), hw.toNat]

/-- Settles O5: only words of the I/O form to device 1 reach the table of codes. -/
theorem undefinedDevice1Words : Obligations.UndefinedDevice1Words := by
  intro w
  rw [← decodeDevice1_eq_undefined_iff (dg_lt w 5 7) (dg_lt w 8 9)]
  obtain hw | hw | ⟨hio, -, hw⟩ := word_cases w
  · simp [hw.decode_eq, hw.classBits, hw.device]
  · have hclass : dg w 0 2 ≠ 3 := fun h3 => by simpa [dg_bit0, h3] using hw.bit0
    simp [hw.decode_eq, hclass]
  · rw [hw]
    exact iff_of_false nofun fun ⟨h3, hdev, _⟩ => hio ⟨h3, hdev⟩

/-- Settles O6: the words of neither form. -/
theorem wordsOutOfScope : Obligations.WordsOutOfScope := by
  intro w
  have hbit := dg_bit0 w
  have hclass : dg w 0 2 < 8 := dg_lt w 0 2
  obtain hw | hw | ⟨hio, htrap, hw⟩ := word_cases w
  · have h3 := hw.classBits
    have hdev := hw.device
    exact iff_of_false (hw.decode_eq ▸ decodeDevice1_ne_notInScope _ _ _) (by omega)
  · have h1 := hw.bit0
    have hmark := hw.marker
    exact iff_of_false (by simp [hw.decode_eq]) (by omega)
  · exact iff_of_true hw (by omega)

/-- Settles O1. -/
theorem decodeReadsWordsOfTheTable : Obligations.DecodeReadsWordsOfTheTable := by
  unfold Obligations.DecodeReadsWordsOfTheTable
  decide

/-- Settles O4: the four words of each code, read by the device-1 table. -/
theorem acFieldOfSavRetIsIgnored : Obligations.AcFieldOfSavRetIsIgnored := by
  intro x hx
  refine ⟨?_, ?_, rfl, rfl, ?_, ?_⟩
  · exact decode_ioWord (t := 5) (c := 0) hx (by decide) (by decide) (by rw [ioWord]; omega)
  · exact decode_ioWord (t := 5) (c := 2) hx (by decide) (by decide) (by rw [ioWord]; omega)
  · exact decode_ioWord (t := 6) (c := 3) hx (by decide) (by decide) (by rw [ioWord]; omega)
  · exact decode_ioWord (t := 6) (c := 1) hx (by decide) (by decide) (by rw [ioWord]; omega)

/-- Settles O7. -/
theorem ioWordsNameDevice1 : Obligations.IoWordsNameDevice1 := by
  intro i hi
  refine ⟨?_, fun w h => ?_⟩
  · obtain ⟨ac, t, c, hac, ht, hc, hword, -⟩ := encodeNat_eq_ioWord hi
    rw [encode, hword]
    exact (ioForm_ofNat hac ht hc).device
  · obtain ⟨hw, -⟩ | ⟨-, rfl⟩ := decode_eq_instr h
    · exact hw.device
    · cases hi

/-- Settles O8: `exec` passes the three fields on to a meaning that reads none of them. -/
theorem trapWordFields : Obligations.TrapWordFields := by
  intro acs acd n hn
  have hw := trapForm_encode acs acd hn
  exact ⟨fun _ _ _ _ => rfl, hw.toNat, hw.bit0, hw.acsField, hw.acdField, hw.numberField, hw.marker⟩

/-- Settles O9. -/
theorem byteWordFields : Obligations.ByteWordFields := by
  intro acs acd
  have hl : IoForm (encode (.ldb acs acd)) acd.number 1 acs.number :=
    ioForm_ofNat acd.number_lt (by decide) acs.number_lt
  have hs : IoForm (encode (.stb acs acd)) acd.number 4 acs.number :=
    ioForm_ofNat acd.number_lt (by decide) acs.number_lt
  refine ⟨?_, ?_, ⟨hl.classBits, hl.acField, hl.transferField, hl.controlField, hl.device⟩,
    ⟨hs.classBits, hs.acField, hs.transferField, hs.controlField, hs.device⟩⟩
  · rw [hl.toNat, ioWord]
    omega
  · rw [hs.toNat, ioWord]
    omega

end Sys2Proof
end

section
/-! SUPPORT. MUL and DIV (41_multiply_divide.md): the numbers they leave, what they write, and what they do not read. -/

namespace Sys2Proof.Machine

/-! ### Products, quotients and remainders as numbers -/

/-- AC0:AC1 holds the whole product plus AC0, which 32 bits are enough for (41_multiply_divide.md R101). -/
theorem mulResult_ac0AddedToProduct (x0 x1 x2 : Word) :
    (mulResult .ac0AddedToProduct x0 x1 x2).1.toNat * 65536 + (mulResult .ac0AddedToProduct x0 x1 x2).2.toNat =
      x1.toNat * x2.toNat + x0.toNat := by
  have hp : x1.toNat * x2.toNat ≤ 65535 * 65535 :=
    Nat.mul_le_mul (Nat.le_of_lt_succ x1.isLt) (Nat.le_of_lt_succ x2.isLt)
  have h0 := x0.isLt
  simp only [mulResult, BitVec.toNat_ofNat]
  omega

/-- With AC0 = 0 the two values of `MUL_MODE` say the same: AC0:AC1 holds the product. -/
theorem mulResult_of_ac0_zero (mode : MulMode) (x1 x2 : Word) :
    (mulResult mode 0 x1 x2).1.toNat * 65536 + (mulResult mode 0 x1 x2).2.toNat = x1.toNat * x2.toNat := by
  have hmode : mulResult mode 0 x1 x2 = mulResult .ac0AddedToProduct 0 x1 x2 := by
    cases mode with
    | highAddedToAc0 => simp [mulResult]
    | ac0AddedToProduct => rfl
  rw [hmode]
  exact mulResult_ac0AddedToProduct 0 x1 x2

/-- A dividend whose high half is below the divisor has a 16-bit quotient (41_multiply_divide.md R102). -/
theorem quotient_toNat {x0 x2 : Word} (x1 : Word) (h : x0.toNat < x2.toNat) :
    (BitVec.ofNat 16 ((x0.toNat * 65536 + x1.toNat) / x2.toNat)).toNat =
      (x0.toNat * 65536 + x1.toNat) / x2.toNat := by
  have h1 := x1.isLt
  have hlt : (x0.toNat * 65536 + x1.toNat) / x2.toNat < 2 ^ 16 := Nat.div_lt_of_lt_mul (by omega)
  exact (BitVec.toNat_ofNat _ _).trans (Nat.mod_eq_of_lt hlt)

theorem remainder_toNat {x2 : Word} (n : Nat) (h : 0 < x2.toNat) :
    (BitVec.ofNat 16 (n % x2.toNat)).toNat = n % x2.toNat :=
  (BitVec.toNat_ofNat _ _).trans (Nat.mod_eq_of_lt ((Nat.mod_lt n h).trans x2.isLt))

/-! ### The outcomes -/

theorem execMul_of_runs {s : State} (h : Runs s.params.hasMulDiv s) :
    execMul s =
      .next ((s.advance.setAc .ac0 (mulResult s.params.mulMode (s.ac .ac0) (s.ac .ac1) (s.ac .ac2)).1).setAc .ac1
        (mulResult s.params.mulMode (s.ac .ac0) (s.ac .ac1) (s.ac .ac2)).2) :=
  execMul_eq_next.2 ⟨h.1, h.2, rfl⟩

theorem execMul_of_ac0_zero {s : State} (h : Runs s.params.hasMulDiv s) (h0 : s.ac .ac0 = 0) :
    ∃ t, execMul s = .next t ∧ Runs t.params.hasMulDiv t ∧ t.ac .ac2 = s.ac .ac2 ∧
      (t.ac .ac0).toNat * 65536 + (t.ac .ac1).toNat = (s.ac .ac1).toNat * (s.ac .ac2).toNat := by
  refine ⟨_, execMul_of_runs h, h, rfl, ?_⟩
  rw [h0]
  exact mulResult_of_ac0_zero s.params.mulMode (s.ac .ac1) (s.ac .ac2)

theorem execDiv_of_lt {s : State} (h : Runs s.params.hasMulDiv s) (hlt : (s.ac .ac0).toNat < (s.ac .ac2).toNat) :
    execDiv s =
      .next (setDivCarry ((s.advance.setAc .ac1
        (BitVec.ofNat 16 (((s.ac .ac0).toNat * 65536 + (s.ac .ac1).toNat) / (s.ac .ac2).toNat))).setAc .ac0
        (BitVec.ofNat 16 (((s.ac .ac0).toNat * 65536 + (s.ac .ac1).toNat) % (s.ac .ac2).toNat)))) :=
  execDiv_eq_next.2 ⟨h.1, h.2, .inl ⟨hlt, rfl⟩⟩

theorem execDiv_of_le {s : State} (h : Runs s.params.hasMulDiv s) (hle : (s.ac .ac2).toNat ≤ (s.ac .ac0).toNat) :
    execDiv s = divOverflowed s.advance := by
  rw [execDiv, gate_of_runs h.1 h.2, if_neg (Nat.not_lt.2 hle)]

theorem divOverflowed_ne_refused (s : State) (r : Refusal) : divOverflowed s ≠ .refused r := by
  unfold divOverflowed
  split
  · nofun
  · nofun
  · nofun

/-- Where the meaning itself does not refuse, the feature test of 30_encoding.md R68 is the one source of
`featureAbsent`. -/
theorem gate_eq_featureAbsent_iff {feature : Bool} {s : State}
    {body : State → Host.Outcome State Fault Refusal} (hb : body s ≠ .refused .featureAbsent) :
    gate feature s body = .refused .featureAbsent ↔ feature = false := by
  refine ⟨fun h => Bool.eq_false_iff.2 fun hf => ?_, fun hf => gate_of_absent hf body⟩
  cases hm : s.mapOn with
  | true => cases (gate_of_mapOn hf hm body).symm.trans h
  | false => exact hb ((gate_of_runs hf hm body).symm.trans h)

theorem execMul_eq_featureAbsent_iff {s : State} :
    execMul s = .refused .featureAbsent ↔ s.params.hasMulDiv = false :=
  gate_eq_featureAbsent_iff nofun

theorem execDiv_eq_featureAbsent_iff {s : State} :
    execDiv s = .refused .featureAbsent ↔ s.params.hasMulDiv = false := by
  refine gate_eq_featureAbsent_iff ?_
  dsimp only
  split
  · nofun
  · exact divOverflowed_ne_refused _ _

/-! ### What they write -/

@[simp] theorem setDivCarry_ac (s : State) (j : Acc) : (setDivCarry s).ac j = s.ac j := by
  unfold setDivCarry
  split
  · rfl
  · rfl

@[simp] theorem setDivCarry_pc (s : State) : (setDivCarry s).pc = s.pc := by
  unfold setDivCarry
  split
  · rfl
  · rfl

theorem setDivCarry_c_of_draw {s : State} (h : s.params.divCarry = .draw) :
    (setDivCarry s).c = Config.freeBit s.draws := by
  simp [setDivCarry, h, drawBit]

theorem setDivCarry_c_of_overflowFlag {s : State} (h : s.params.divCarry = .overflowFlag) :
    (setDivCarry s).c = false := by
  simp [setDivCarry, h]

/-- `t` is `s` at the next word, with AC0, AC1, the carry and the count of free values as they may be: all that MUL and
DIV write (41_multiply_divide.md R101, R102). -/
structure MulDivWrites (s t : State) : Prop where
  eq : t = { s with acs := t.acs, c := t.c, draws := t.draws, pc := s.pc + 1 }
  ac2 : t.ac .ac2 = s.ac .ac2
  ac3 : t.ac .ac3 = s.ac .ac3

theorem execMul_writes {s t : State} (h : execMul s = .next t) : MulDivWrites s t := by
  obtain ⟨-, -, rfl⟩ := execMul_eq_next.1 h
  exact ⟨rfl, rfl, rfl⟩

theorem divOverflowed_writes {s t : State} (h : divOverflowed s.advance = .next t) : MulDivWrites s t := by
  unfold divOverflowed at h
  split at h
  · cases h
  · cases h; exact ⟨rfl, rfl, rfl⟩
  · cases h; exact ⟨rfl, rfl, rfl⟩

theorem execDiv_writes {s t : State} (h : execDiv s = .next t) : MulDivWrites s t := by
  obtain ⟨-, -, ⟨-, ht⟩ | ⟨-, ht⟩⟩ := execDiv_eq_next.1 h
  · have hpc : t.pc = s.pc + 1 := by simp [ht]
    exact ⟨hpc ▸ execDiv_frame h, by simp [ht], by simp [ht]⟩
  · exact divOverflowed_writes ht

/-! ### What they do not read -/

/-- The state with other contents where MUL and DIV do not look: memory, SP and AC3. -/
def State.withUnread (s : State) (m : Memory) (p : Addr) (x : Word) : State :=
  { s.setAc .ac3 x with mem := m, sp := p }

theorem setDivCarry_withUnread (s : State) (m : Memory) (p : Addr) (x : Word) :
    setDivCarry (s.withUnread m p x) = (setDivCarry s).withUnread m p x := by
  have hp : (s.withUnread m p x).params = s.params := rfl
  unfold setDivCarry
  rw [hp]
  cases s.params.divCarry with
  | draw => rfl
  | overflowFlag => rfl

theorem divOverflowed_withUnread {s t : State} (m : Memory) (p : Addr) (x : Word) (h : divOverflowed s = .next t) :
    divOverflowed (s.withUnread m p x) = .next (t.withUnread m p x) := by
  have hp : (s.withUnread m p x).params = s.params := rfl
  unfold divOverflowed at h ⊢
  rw [hp]
  split at h
  · cases h
  · cases h; rfl
  · cases h; rfl

theorem execMul_withUnread {s t : State} (m : Memory) (p : Addr) (x : Word) (h : execMul s = .next t) :
    execMul (s.withUnread m p x) = .next (t.withUnread m p x) := by
  obtain ⟨hf, hm, rfl⟩ := execMul_eq_next.1 h
  exact execMul_of_runs (s := s.withUnread m p x) ⟨hf, hm⟩

theorem execDiv_withUnread {s t : State} (m : Memory) (p : Addr) (x : Word) (h : execDiv s = .next t) :
    execDiv (s.withUnread m p x) = .next (t.withUnread m p x) := by
  obtain ⟨hf, hm, ⟨hlt, rfl⟩ | ⟨hle, ht⟩⟩ := execDiv_eq_next.1 h
  · rw [← setDivCarry_withUnread]
    exact execDiv_of_lt (s := s.withUnread m p x) ⟨hf, hm⟩ hlt
  · rw [execDiv_of_le (s := s.withUnread m p x) ⟨hf, hm⟩ hle]
    exact divOverflowed_withUnread m p x ht

end Sys2Proof.Machine
end

section
/-! PROOF. The statements about MUL and DIV (41_multiply_divide.md). They stand outside `Machine`, where `mulResult` is the
function of the model. -/

namespace Sys2Proof

open Machine

/-- Settles O16. -/
theorem mulResult : Obligations.MulResult := by
  intro s h
  refine ⟨_, execMul_of_runs h, rfl, rfl, rfl, fun hmode => ?_, fun hmode => ?_⟩
  · simp [hmode, Machine.mulResult]
  · simpa [hmode] using mulResult_ac0AddedToProduct (s.ac .ac0) (s.ac .ac1) (s.ac .ac2)

/-- Settles O17: quotient and remainder fit in 16 bits, so they satisfy the division equation. -/
theorem divResult : Obligations.DivResult := by
  intro s h hlt
  have hpos := Nat.zero_lt_of_lt hlt
  have ht := execDiv_of_lt h hlt
  obtain ⟨heq, h2, h3⟩ := execDiv_writes ht
  refine ⟨_, ht, heq, h2, h3, ?_, ?_, fun hc => setDivCarry_c_of_draw hc, fun hc => setDivCarry_c_of_overflowFlag hc⟩
  · simp [quotient_toNat _ hlt, remainder_toNat _ hpos, Nat.div_add_mod']
  · simpa [remainder_toNat _ hpos] using Nat.mod_lt _ hpos

/-- Settles O18: the division ends in `divOverflowed`, which reads `DIV_OVERFLOW`. -/
theorem divWithNoQuotient : Obligations.DivWithNoQuotient := by
  intro s h hle
  have hdiv : exec .div s = divOverflowed s.advance := execDiv_of_le h hle
  refine ⟨fun ho => ?_, fun ho => ?_, fun ho => ?_⟩
  · simp [hdiv, divOverflowed, ho]
  · simp only [hdiv, divOverflowed, State.advance_params, ho]
    rfl
  · obtain ⟨t, ht⟩ : ∃ t, divOverflowed s.advance = .next t := by simp [divOverflowed, ho]
    obtain ⟨heq, h2, h3⟩ := divOverflowed_writes ht
    exact ⟨t, hdiv.trans ht, heq, h2, h3⟩

/-- Settles O19: MUL leaves AC1 times AC2 in AC0:AC1, whose high half is below AC2, and the division equation has one
solution. -/
theorem mulThenDivRestores : Obligations.MulThenDivRestores := by
  intro s h h0 h2
  have hpos : 0 < (s.ac .ac2).toNat := BitVec.toNat_pos_of_ne_zero h2
  obtain ⟨t, ht, hruns, hac2, hprod⟩ := execMul_of_ac0_zero h h0
  have hlt : (t.ac .ac0).toNat < (t.ac .ac2).toNat := by
    have hx := Nat.mul_lt_mul_of_pos_right (s.ac .ac1).isLt hpos
    rw [hac2]
    omega
  obtain ⟨u, hu, -, hu2, -, hdiv, hrem, -⟩ := divResult t hruns hlt
  rw [hprod, hac2] at hdiv
  rw [hac2] at hrem
  have hsol : (s.ac .ac1).toNat * (s.ac .ac2).toNat / (s.ac .ac2).toNat = (u.ac .ac1).toNat ∧
      (s.ac .ac1).toNat * (s.ac .ac2).toNat % (s.ac .ac2).toNat = (u.ac .ac0).toNat :=
    (Nat.div_mod_unique hpos).2 ⟨by rw [hdiv, Nat.add_comm, Nat.mul_comm], hrem⟩
  rw [Nat.mul_div_cancel _ hpos, Nat.mul_mod_left] at hsol
  exact ⟨t, u, ht, hu, BitVec.eq_of_toNat_eq hsol.1.symm, BitVec.eq_of_toNat_eq hsol.2.symm, hu2.trans hac2⟩

/-- Settles O20. -/
theorem mulDivFrame : Obligations.MulDivFrame := by
  intro i s hi
  have hwrites (t : State) (h : exec i s = .next t) : MulDivWrites s t := by
    obtain rfl | rfl := hi
    · exact execMul_writes h
    · exact execDiv_writes h
  refine ⟨?_, fun t m p x h => ?_, fun t h => ?_⟩
  · obtain rfl | rfl := hi
    · exact execMul_eq_featureAbsent_iff.symm
    · exact execDiv_eq_featureAbsent_iff.symm
  · obtain rfl | rfl := hi
    · exact execMul_withUnread m p x h
    · exact execDiv_withUnread m p x h
  · obtain ⟨heq, h2, h3⟩ := hwrites t h
    have hc (hmul : i = .mul) : t.c = s.c ∧ t.draws = s.draws := by
      subst hmul
      obtain ⟨-, -, rfl⟩ := execMul_eq_next.1 h
      exact ⟨rfl, rfl⟩
    refine ⟨h2, h3, ?_⟩
    rw [heq]
    exact ⟨rfl, rfl, rfl, rfl, rfl, rfl, rfl, fun _ => rfl, rfl, rfl, rfl, heq ▸ hc⟩

end Sys2Proof
end

section
/-! SUPPORT. The stack (42_stack.md): the page crossing rule as the statements give it, the words of the return block, and
the one state from which SAV and RET meet that rule. -/

namespace Sys2Proof.Machine

/-! ### Between 15 and 16 bits -/

theorem low15_toNat (v : Word) : (low15 v).toNat = v.toNat % 32768 := BitVec.toNat_setWidth 15 v

theorem low15_eq_ofNat (v : Word) : low15 v = BitVec.ofNat 15 (v.toNat % 32768) := by
  rw [← low15_toNat, BitVec.ofNat_toNat, BitVec.setWidth_eq]

theorem zext16_toNat (a : Addr) : (zext16 a).toNat = a.toNat := BitVec.toNat_setWidth_of_le (by decide)

@[simp] theorem low15_zext16 (a : Addr) : low15 (zext16 a) = a := BitVec.setWidth_setWidth_of_le a (by decide)

theorem packCarry_toNat (c : Bool) (a : Addr) : (packCarry c a).toNat = (if c then 32768 else 0) + a.toNat := by
  have ha : a.toNat < 32768 := a.isLt
  have hc : c.toNat < 2 := c.toNat_lt
  rw [packCarry, BitVec.toNat_ofNat, Nat.mod_eq_of_lt (by omega)]
  cases c
  · simp
  · simp

@[simp] theorem topBit_packCarry (c : Bool) (a : Addr) : topBit (packCarry c a) = c := by
  have ha : a.toNat < 32768 := a.isLt
  rw [topBit, BitVec.msb_eq_decide, packCarry_toNat]
  cases c
  · simpa using ha
  · simp

@[simp] theorem low15_packCarry (c : Bool) (a : Addr) : low15 (packCarry c a) = a := by
  have ha : a.toNat < 32768 := a.isLt
  apply BitVec.eq_of_toNat_eq
  rw [low15_toNat, packCarry_toNat]
  cases c
  · simpa using ha
  · simpa using ha

/-! ### The end of an instruction that uses the stack -/

theorem setSp_of_written {s : State} (h : s.spWritten = true) (a : Addr) : s.setSp a = { s with sp := a } := by
  rw [State.setSp, ← h]

/-- 60_exceptions.md R163 to R165, in the words of the statements. -/
theorem endsAfterStackUse_stackCheck {a : Addr} {u : State} {b : Bool} {crossed : Prop} (hc : crossed ↔ b = true)
    (hm : u.mapOn = false) (hwf : u.mem.wf) :
    EndsAfterStackUse a crossed u (stackCheck a { st := u, crossed := b }) := by
  have hfault (h : crossed) (hi : u.ion = true) : stackCheck a { st := u, crossed := b } = raiseStackFault a u := by
    simp [stackCheck, hc.1 h, hi]
  refine ⟨fun h => ?_, fun h hi hl => ?_, fun h hi hl => ?_, fun h hi h0 h3 hb => ?_, fun h hi h0 h3 hb => ?_,
    fun h hi h03 => ?_⟩
  · exact stackCheck_eq_next.2 (.inl ⟨Bool.eq_false_iff.2 (mt hc.2 h), rfl⟩)
  · exact stackCheck_eq_next.2 (.inr (.inr (.inr ⟨hc.1 h, hi, hl, rfl⟩)))
  · exact stackCheck_eq_next.2 (.inr (.inr (.inl ⟨hc.1 h, hi, hl, rfl⟩)))
  · have ht := raiseStackFault_eq_next (a := a).2 ⟨hm, h0, h3, hb, rfl⟩
    exact ⟨_, (hfault h hi).trans ht, stackFaultEntered_of_raiseStackFault hwf ht⟩
  · rw [hfault h hi, raiseStackFault_of a hm h0 h3, if_pos hb]
  · rw [hfault h hi, raiseStackFault_of_absent a hm h03]

/-- With ION = 0 or no crossing nothing but STKPEND can still change. -/
theorem stackCheck_of_no_fault {a : Addr} {u : State} {b : Bool} {crossed : Prop} (hc : crossed ↔ b = true)
    (h : u.ion = false ∨ ¬ crossed) : ∃ p, stackCheck a { st := u, crossed := b } = .next (u.setStkpend p) := by
  cases hb : b with
  | false => exact ⟨u.stkpend, rfl⟩
  | true =>
    have hi : u.ion = false := h.resolve_right (not_not_intro (hc.2 hb))
    cases hl : u.params.stkFaultLatch with
    | false => exact ⟨u.stkpend, stackCheck_eq_next.2 (.inr (.inr (.inr ⟨rfl, hi, hl, rfl⟩)))⟩
    | true => exact ⟨true, stackCheck_eq_next.2 (.inr (.inr (.inl ⟨rfl, hi, hl, rfl⟩)))⟩

/-- ION changes exactly in a stack fault that is taken (60_exceptions.md R163, R164). -/
theorem stackCheck_ion_ne_iff {a : Addr} {w : Work} {t : State} {crossed : Prop} (hc : crossed ↔ w.crossed = true)
    (h : stackCheck a w = .next t) : t.ion ≠ w.st.ion ↔ w.st.ion = true ∧ crossed := by
  rw [hc]
  obtain ⟨hb, rfl⟩ | ⟨hb, hi, h⟩ | ⟨hb, hi, -, rfl⟩ | ⟨hb, hi, -, rfl⟩ := stackCheck_eq_next.1 h
  · simp [hb]
  · obtain ⟨-, -, -, -, rfl⟩ := raiseStackFault_eq_next.1 h
    simp [hb, hi]
  · simp [hi]
  · simp [hi]

/-- An instruction outside the stack group leaves ION alone. -/
theorem exec_ion_of_not_usesStack {i : Instr} {s t : State} (hi : usesStack i = false) (h : exec i s = .next t) :
    t.ion = s.ion := by
  cases i with
  | mul => obtain ⟨-, -, rfl⟩ := execMul_eq_next.1 h; rfl
  | div => rw [execDiv_frame h]
  | mtsp ac => obtain ⟨-, -, rfl⟩ := execMtsp_eq_next.1 h; rfl
  | mfsp ac => obtain ⟨-, -, -, rfl⟩ := execMfsp_eq_next.1 h; rfl
  | mtfp ac => obtain ⟨-, -, rfl⟩ := execMtfp_eq_next.1 h; rfl
  | mffp ac => obtain ⟨-, -, -, rfl⟩ := execMffp_eq_next.1 h; rfl
  | psha ac => cases hi
  | popa ac => cases hi
  | sav => cases hi
  | ret => cases hi
  | ldb acs acd => obtain ⟨-, -, -, rfl⟩ := execLdb_eq_next.1 h; rfl
  | stb acs acd => obtain ⟨-, -, -, rfl⟩ := execStb_eq_next.1 h; rfl
  | trap acs acd n =>
    obtain ⟨-, -, -, -, rfl⟩ | ⟨-, -, rfl⟩ := (execTrap_eq_next (acs := acs) (acd := acd) (number := n)).1 h
    · rfl
    · rfl

theorem usesStack_of_crossesDuring {i : Instr} {s : State} (h : CrossesDuring s i) : usesStack i = true := by
  cases i with
  | psha ac => rfl
  | popa ac => rfl
  | sav => rfl
  | ret => rfl
  | _ => exact h.elim

/-! ### Pages -/

/-- An address starts a page exactly when the address before it is on another page, the wrap from 0x7FFF to 0
included (42_stack.md R122). -/
theorem pageStart_succ_iff {p : Params} (h0 : 0 < p.pageWords) (h1 : p.pageWords < 32768) (a : Addr) :
    pageStart p (a + 1) = true ↔ a.toNat / p.pageWords ≠ (a + 1).toNat / p.pageWords := by
  have ha : a.toNat < 32768 := a.isLt
  have hsum : (a + 1).toNat = (a.toNat + 1) % 32768 := BitVec.toNat_add a 1
  rw [pageStart_iff, hsum]
  obtain hwrap | hlt : a.toNat = 32767 ∨ a.toNat + 1 < 32768 := by omega
  · have hpage : 0 < 32767 / p.pageWords := Nat.div_pos (by omega) h0
    rw [hwrap]
    exact iff_of_true (Nat.zero_mod _) (by simpa using hpage.ne')
  · rw [Nat.mod_eq_of_lt hlt, ← Nat.dvd_iff_mod_eq_zero, Nat.succ_div]
    by_cases hd : p.pageWords ∣ a.toNat + 1
    · simp [hd]
    · simp [hd]

/-! ### The words of the return block -/

theorem hasWords_five_iff {s : State} {a : Addr} :
    HasWords s a 5 ↔ s.hasWord a = true ∧ s.hasWord (a + 1) = true ∧ s.hasWord (a + 2) = true ∧
      s.hasWord (a + 3) = true ∧ s.hasWord (a + 4) = true := by
  have h0 : a + BitVec.ofNat 15 0 = a := BitVec.add_zero a
  constructor
  · intro h
    exact ⟨h0 ▸ h 0 (by decide), h 1 (by decide), h 2 (by decide), h 3 (by decide), h 4 (by decide)⟩
  · rintro ⟨w0, w1, w2, w3, w4⟩ k hk
    match k, hk with
    | 0, _ => rwa [h0]
    | 1, _ => exact w1
    | 2, _ => exact w2
    | 3, _ => exact w3
    | 4, _ => exact w4

/-- SAV's five words, from SP + 1 on (42_stack.md R119). -/
theorem hasWords_above_iff {s : State} {p : Addr} :
    HasWords s (p + 1) 5 ↔ s.hasWord (p + 1) = true ∧ s.hasWord (p + 2) = true ∧ s.hasWord (p + 3) = true ∧
      s.hasWord (p + 4) = true ∧ s.hasWord (p + 5) = true := by
  have add (k : Addr) : p + 1 + k = p + (1 + k) := BitVec.add_assoc _ _ _
  rw [hasWords_five_iff, add, add, add, add]
  rfl

/-- RET's five words, in the order in which it pops them (42_stack.md R120). -/
theorem hasWords_below_iff {s : State} {p : Addr} :
    HasWords s (p - 4) 5 ↔ s.hasWord p = true ∧ s.hasWord (p - 1) = true ∧ s.hasWord (p - 2) = true ∧
      s.hasWord (p - 3) = true ∧ s.hasWord (p - 4) = true := by
  have h1 : p - 4 + 1 = p - 3 := by bv_omega
  have h2 : p - 4 + 2 = p - 2 := by bv_omega
  have h3 : p - 4 + 3 = p - 1 := by bv_omega
  rw [hasWords_five_iff, h1, h2, h3, BitVec.sub_add_cancel]
  tauto

/-- The words at `p - 4` to `p` are the return block that SAV makes of `s` (42_stack.md R121). -/
structure HoldsReturnBlock (m : Memory) (p : Addr) (s : State) : Prop where
  ac0 : m.readWord (p - 4) = s.ac .ac0
  ac1 : m.readWord (p - 3) = s.ac .ac1
  ac2 : m.readWord (p - 2) = s.ac .ac2
  fp : m.readWord (p - 1) = zext16 s.fp
  carryPc : m.readWord p = packCarry s.c (low15 (s.ac .ac3))

/-- Memory after SAV's pushes (42_stack.md R119), at any distance from the old SP. -/
theorem readWord_savMemory {s : State} (h : s.mem.wf) (d : Addr) :
    (savMemory s).readWord (s.sp + d) =
      if d = 5 then packCarry s.c (low15 (s.ac .ac3)) else if d = 4 then zext16 s.fp
      else if d = 3 then s.ac .ac2 else if d = 2 then s.ac .ac1 else if d = 1 then s.ac .ac0
      else s.mem.readWord (s.sp + d) := by
  have w1 := Memory.writeWord_wf h (s.sp + 1) (s.ac .ac0)
  have w2 := Memory.writeWord_wf w1 (s.sp + 2) (s.ac .ac1)
  have w3 := Memory.writeWord_wf w2 (s.sp + 3) (s.ac .ac2)
  have w4 := Memory.writeWord_wf w3 (s.sp + 4) (zext16 s.fp)
  simp only [savMemory, Memory.readWord_writeWord w4, Memory.readWord_writeWord w3, Memory.readWord_writeWord w2,
    Memory.readWord_writeWord w1, Memory.readWord_writeWord h, BitVec.add_right_inj]

theorem savMemory_holdsReturnBlock {s : State} (h : s.mem.wf) : HoldsReturnBlock (savMemory s) (s.sp + 5) s := by
  have h1 : s.sp + 5 - 4 = s.sp + 1 := by bv_omega
  have h2 : s.sp + 5 - 3 = s.sp + 2 := by bv_omega
  have h3 : s.sp + 5 - 2 = s.sp + 3 := by bv_omega
  have h4 : s.sp + 5 - 1 = s.sp + 4 := by bv_omega
  refine ⟨?_, ?_, ?_, ?_, readWord_savMemory h 5⟩
  · rw [h1]; exact readWord_savMemory h 1
  · rw [h2]; exact readWord_savMemory h 2
  · rw [h3]; exact readWord_savMemory h 3
  · rw [h4]; exact readWord_savMemory h 4

theorem savMemory_wf {s : State} (h : s.mem.wf) : (savMemory s).wf :=
  have hwf {m : Memory} (hm : m.wf) {a : Addr} {v : Word} := Memory.writeWord_wf hm a v
  hwf (hwf (hwf (hwf (hwf h))))

theorem HoldsReturnBlock.of_readWord_eq {m n : Memory} {p : Addr} {s : State} (h : HoldsReturnBlock m p s)
    (hn : ∀ k, k < 5 → n.readWord (p - BitVec.ofNat 15 k) = m.readWord (p - BitVec.ofNat 15 k)) :
    HoldsReturnBlock n p s where
  ac0 := (hn 4 (by decide)).trans h.ac0
  ac1 := (hn 3 (by decide)).trans h.ac1
  ac2 := (hn 2 (by decide)).trans h.ac2
  fp := (hn 1 (by decide)).trans h.fp
  carryPc := by
    have h0 : p - BitVec.ofNat 15 0 = p := BitVec.sub_zero p
    exact (h0 ▸ hn 0 (by decide)).trans h.carryPc

/-! ### SAV -/

/-- The state in which SAV meets the page crossing rule (42_stack.md R119). -/
def afterSav (s : State) : State :=
  { s with
    mem := savMemory s, acs := s.acs.set .ac3 (zext16 (s.sp + 5)), sp := s.sp + 5, fp := s.sp + 5, pc := s.pc + 1 }

theorem execSav_eq_stackCheck {s : State} (hr : Runs s.params.hasStack s) (hs : s.spWritten = true)
    (hf : s.fpWritten = true) (hw : HasWords s (s.sp + 1) 5) :
    ∃ b, (CrossesUp s.params s.sp 5 ↔ b = true) ∧ execSav s = stackCheck s.pc { st := afterSav s, crossed := b } := by
  have hafter : afterSav s = { afterSav s with spWritten := true, fpWritten := true } := by
    simp only [afterSav, hs, hf]
  refine ⟨_, crossesUp_five, ?_⟩
  rw [hafter]
  exact execSav_of hr.1 hr.2 hs hf (hasWords_above_iff.1 hw)

/-- What a SAV that completes has found. -/
theorem runs_of_execSav {s t : State} (h : execSav s = .next t) :
    Runs s.params.hasStack s ∧ s.spWritten = true ∧ s.fpWritten = true ∧ HasWords s (s.sp + 1) 5 := by
  obtain ⟨hf, hm, hs, hp, hw, -⟩ := execSav_eq_next.1 h
  exact ⟨⟨hf, hm⟩, hs, hp, hasWords_above_iff.2 hw⟩

theorem execSav_of_no_fault {s t : State} (h : execSav s = .next t)
    (hn : s.ion = false ∨ ¬ CrossesUp s.params s.sp 5) : ∃ p, t = (afterSav s).setStkpend p := by
  obtain ⟨hr, hs, hf, hw⟩ := runs_of_execSav h
  obtain ⟨b, hb, heq⟩ := execSav_eq_stackCheck hr hs hf hw
  obtain ⟨p, hp⟩ := stackCheck_of_no_fault (a := s.pc) (u := afterSav s) hb hn
  exact ⟨p, Host.Outcome.next.inj (h.symm.trans (heq.trans hp))⟩

/-! ### RET -/

/-- The state in which RET meets the page crossing rule (42_stack.md R120). -/
def afterRet (s : State) : State :=
  { s with
    acs :=
      { ac0 := s.mem.readWord (retStart s - 4)
        ac1 := s.mem.readWord (retStart s - 3)
        ac2 := s.mem.readWord (retStart s - 2)
        ac3 := s.mem.readWord (retStart s - 1) }
    c := topBit (s.mem.readWord (retStart s))
    pc := low15 (s.mem.readWord (retStart s))
    sp := retStart s - 5
    spWritten := true
    fp := low15 (s.mem.readWord (retStart s - 1))
    fpWritten := true }

theorem execRet_eq_stackCheck {s : State} (hr : Runs s.params.hasStack s)
    (hs : s.params.retSpFromFp = false → s.spWritten = true) (hf : s.params.retSpFromFp = true → s.fpWritten = true)
    (hw : HasWords s (retStart s - 4) 5) :
    ∃ b, (CrossesDown s.params (retStart s) 5 ↔ b = true) ∧
      execRet s = stackCheck s.pc { st := afterRet s, crossed := b } := by
  refine ⟨_, crossesDown_five, ?_⟩
  rw [execRet, gate_of_runs hr.1 hr.2, reloadSp_of (s := s.advance) hs hf, andThen_next]
  exact popBlock_of (s := s.advance.setSp (retStart s)) rfl hr.2 (hasWords_below_iff.1 hw)

/-- RET undoes SAV: with SAV's block in place below `p`, it restores the registers the block was made of. -/
theorem afterRet_of_holdsReturnBlock {r s : State} (h : HoldsReturnBlock r.mem (retStart r) s) :
    afterRet r =
      { r with
        acs := { s.acs with ac3 := zext16 s.fp }, c := s.c, pc := low15 (s.ac .ac3), sp := retStart r - 5
        spWritten := true, fp := s.fp, fpWritten := true } := by
  simp only [afterRet, h.ac0, h.ac1, h.ac2, h.fp, h.carryPc, low15_zext16, topBit_packCarry, low15_packCarry]
  rfl

end Sys2Proof.Machine
end

section
/-! PROOF. The statements about the stack (42_stack.md). -/

namespace Sys2Proof.Machine

/-- Settles O28: the store is followed by the page crossing rule. -/
theorem pshaResult : Obligations.PshaResult := by
  intro s ac ⟨hf, hm⟩ hs hw hwf
  rw [exec, execPsha_of hf hm hs hw, setSp_of_written (s := s.advance.setMem _) hs]
  exact endsAfterStackUse_stackCheck crossesUp_one hm (Memory.writeWord_wf hwf _ _)

/-- Settles O29: the load is followed by the page crossing rule. -/
theorem popaResult : Obligations.PopaResult := by
  intro s ac ⟨hf, hm⟩ hs hw hwf
  rw [exec, execPopa_of hf hm hs hw, setSp_of_written (s := s.advance) hs]
  exact endsAfterStackUse_stackCheck crossesDown_one hm hwf

/-- Settles O30: the page crossing rule from `afterSav`. -/
theorem savResult : Obligations.SavResult := by
  intro s hr hs hf hw hwf
  obtain ⟨b, hb, h⟩ := execSav_eq_stackCheck hr hs hf hw
  rw [exec, h]
  exact endsAfterStackUse_stackCheck hb hr.2 (savMemory_wf hwf)

/-- Settles O32: the page crossing rule from `afterRet`. -/
theorem retResult : Obligations.RetResult := by
  intro s hr
  refine ⟨fun hp hf => ?_, fun hs hf hw hwf => ?_⟩
  · have hreload : reloadSp s.advance = .fault .unwrittenFP := by simp [reloadSp, hp, hf]
    rw [exec, execRet, gate_of_runs hr.1 hr.2, hreload, andThen_fault]
  · obtain ⟨b, hb, h⟩ := execRet_eq_stackCheck hr hs hf hw
    rw [exec, h]
    exact endsAfterStackUse_stackCheck hb hr.2 hwf

/-- Settles O36: the page crossing rule changes ION only in a stack fault, and no other instruction writes it. -/
theorem stackFaultTakenExactlyOnCrossing : Obligations.StackFaultTakenExactlyOnCrossing := by
  intro i s t h
  have key : t.ion ≠ s.ion ↔ s.ion = true ∧ CrossesDuring s i := by
    cases i with
    | psha ac =>
      obtain ⟨-, -, -, -, h⟩ := execPsha_eq_next.1 h
      exact stackCheck_ion_ne_iff crossesUp_one h
    | popa ac =>
      obtain ⟨-, -, -, -, h⟩ := execPopa_eq_next.1 h
      exact stackCheck_ion_ne_iff crossesDown_one h
    | sav =>
      obtain ⟨-, -, -, -, -, h⟩ := execSav_eq_next.1 h
      exact stackCheck_ion_ne_iff crossesUp_five h
    | ret =>
      obtain ⟨-, -, -, h⟩ := popBlock_eq_next.1 (popBlock_of_execRet h)
      exact stackCheck_ion_ne_iff crossesDown_five h
    | _ => exact iff_of_false (not_not_intro (exec_ion_of_not_usesStack rfl h)) And.right
  exact ⟨key, fun hne => usesStack_of_crossesDuring (key.1 hne).2⟩

/-- Settles O31: without a stack fault the five words are as SAV stored them. -/
theorem savStoresReturnBlock : Obligations.SavStoresReturnBlock := by
  intro s t hwf h hion
  have hn : s.ion = false ∨ ¬ CrossesUp s.params s.sp 5 := by
    have hiff := (stackFaultTakenExactlyOnCrossing .sav s t h).1
    rw [← Bool.not_eq_true, ← not_and_or]
    exact mt hiff.2 (not_not_intro hion)
  obtain ⟨p, rfl⟩ := execSav_of_no_fault h hn
  have hblock := savMemory_holdsReturnBlock hwf
  refine ⟨rfl, rfl, zext16_toNat _, hblock.ac0, hblock.ac1, hblock.ac2, ?_, ?_⟩
  · exact (congrArg BitVec.toNat hblock.fp).trans (zext16_toNat _)
  · rw [← low15_toNat, ← packCarry_toNat]
    exact congrArg BitVec.toNat hblock.carryPc

/-- Settles O33: RET starts at the top of SAV's block under both values of `RET_SP_FROM_FP`. -/
theorem savThenRet : Obligations.SavThenRet := by
  intro s t r hwf hsn hsav hparams hmap hrn hsp hspw hfp hfpw hwords
  obtain ⟨⟨hf, -⟩, -, -, hw⟩ := runs_of_execSav hsav
  obtain ⟨p, rfl⟩ := execSav_of_no_fault hsav hsn
  have hsp : r.sp = s.sp + 5 := hsp
  have hfp : r.fp = s.sp + 5 := hfp
  have hstart : retStart r = s.sp + 5 := by rw [retStart, hsp, hfp, ite_self]
  have hbase : s.sp + 5 - 4 = s.sp + 1 := by bv_omega
  have hblock : HoldsReturnBlock r.mem (retStart r) s := by
    rw [hstart]
    exact (savMemory_holdsReturnBlock hwf).of_readWord_eq hwords
  have hrw : HasWords r (retStart r - 4) 5 := by
    simpa only [hstart, hbase, HasWords, State.hasWord, hparams] using hw
  obtain ⟨b, hb, hret⟩ :=
    execRet_eq_stackCheck ⟨hparams ▸ hf, hmap⟩ (fun _ => hspw) (fun _ => hfpw) hrw
  rw [hstart, ← hsp] at hb
  obtain ⟨q, hq⟩ := stackCheck_of_no_fault (a := r.pc) (u := afterRet r) hb hrn
  rw [afterRet_of_holdsReturnBlock hblock] at hret hq
  refine ⟨_, hret.trans hq, rfl, rfl, rfl, rfl, rfl, ?_, rfl, rfl⟩
  show retStart r - 5 = s.sp
  rw [hstart, BitVec.add_sub_cancel]

/-- Settles O34. -/
theorem pushThenPop : Obligations.PushThenPop := by
  intro v w w1 hwf h
  obtain ⟨-, hm, hw, rfl⟩ := push_eq_next.1 h
  refine ⟨_, pop_eq_next.2 ⟨rfl, hm, hw, ?_, rfl⟩, BitVec.add_sub_cancel _ _⟩
  exact (Memory.readWord_writeWord_self hwf _ v).symm

/-- Settles O35: a decrement crosses where the increment back does. -/
theorem pageCrossingIsChangeOfPage : Obligations.PageCrossingIsChangeOfPage := by
  intro p a h0 h1
  refine ⟨crossesUp_one.trans (pageStart_succ_iff h0 h1 a), crossesDown_one.trans ?_⟩
  have hback := pageStart_succ_iff h0 h1 (a - 1)
  rwa [BitVec.sub_add_cancel, ne_comm] at hback

/-- Settles O21. -/
theorem mtspResult : Obligations.MtspResult := by
  intro s ac ⟨hf, hm⟩
  rw [← low15_eq_ofNat]
  exact execMtsp_eq_next.2 ⟨hf, hm, rfl⟩

/-- Settles O22. -/
theorem mfspResult : Obligations.MfspResult := by
  intro s ac ⟨hf, hm⟩
  refine ⟨fun hs => ?_, fun hs => ?_⟩
  · refine ⟨_, execMfsp_eq_next.2 ⟨hf, hm, hs, rfl⟩, ?_, fun j hj => by simp [hj], rfl⟩
    rw [State.setAc_ac, if_pos rfl, zext16_toNat]
  · simp [exec, execMfsp, gate_of_runs hf hm, hs]

/-- Settles O23. -/
theorem mtfpResult : Obligations.MtfpResult := by
  intro s ac ⟨hf, hm⟩
  rw [← low15_eq_ofNat]
  exact execMtfp_eq_next.2 ⟨hf, hm, rfl⟩

/-- Settles O24. -/
theorem mffpResult : Obligations.MffpResult := by
  intro s ac ⟨hf, hm⟩
  refine ⟨fun hs => ?_, fun hs => ?_⟩
  · refine ⟨_, execMffp_eq_next.2 ⟨hf, hm, hs, rfl⟩, ?_, fun j hj => by simp [hj], rfl⟩
    rw [State.setAc_ac, if_pos rfl, zext16_toNat]
  · simp [exec, execMffp, gate_of_runs hf hm, hs]

/-- Settles O25: each of the four answers one register update of the state at the next word. -/
theorem pointerMoveFrame : Obligations.PointerMoveFrame := by
  intro s t ac
  refine ⟨fun h => ?_, fun h => ?_, fun h => ?_⟩
  · obtain ⟨-, -, rfl⟩ := execMtsp_eq_next.1 h
    exact ⟨rfl, fun _ => rfl⟩
  · obtain ⟨-, -, rfl⟩ := execMtfp_eq_next.1 h
    exact ⟨rfl, fun _ => rfl⟩
  · obtain ⟨v, rfl⟩ : ∃ v, t = s.advance.setAc ac v := by
      obtain h | h := h
      · obtain ⟨-, -, -, ht⟩ := execMfsp_eq_next.1 h
        exact ⟨_, ht⟩
      · obtain ⟨-, -, -, ht⟩ := execMffp_eq_next.1 h
        exact ⟨_, ht⟩
    exact ⟨rfl, fun j hj => by simp [hj], fun _ => rfl⟩

end Sys2Proof.Machine
end

section
/-! SUPPORT. LDB reads back the byte STB has put into a word (43_byte.md R142). -/

namespace Sys2Proof.Machine

theorem selectByte_replaceByte (p : Params) (sel : BitVec 1) (b : Byte) (w : Word) :
    selectByte p sel (replaceByte p sel b w) = b := by
  unfold selectByte replaceByte
  split
  · exact leftByte_joinBytes b (rightByte w)
  · exact rightByte_joinBytes (leftByte w) b

end Sys2Proof.Machine
end

section
/-! PROOF. The statements about the byte instructions together (43_byte.md R140 to R142). -/

namespace Sys2Proof.Machine

/-- Settles O44: STB leaves the pointer as it was, so LDB selects the half STB replaced. -/
theorem stbThenLdb : Obligations.StbThenLdb := by
  intro s t acs acd dst hwf h
  obtain ⟨hf, hm, hw, rfl⟩ := execStb_eq_next.1 h
  refine ⟨_, execLdb_eq_next.2 ⟨hf, hm, hw, rfl⟩, ?_⟩
  rw [State.setAc_ac, if_pos rfl, BitVec.toNat_setWidth_of_le (by decide)]
  simp [Memory.readWord_writeWord_self hwf, selectByte_replaceByte, rightByte_toNat]

/-- Settles O45: LDB ends in one accumulator update at the next word, STB in one word store there. -/
theorem byteFrame : Obligations.ByteFrame := by
  intro s t acs acd
  refine ⟨fun h => ?_, fun h => ?_⟩
  · obtain ⟨-, -, -, rfl⟩ := execLdb_eq_next.1 h
    exact ⟨rfl, fun j hj => by simp [hj], fun _ => rfl⟩
  · obtain ⟨-, -, -, rfl⟩ := execStb_eq_next.1 h
    exact ⟨rfl, fun a ha => Memory.readByte_writeWord_of_ne _ _ ha⟩

end Sys2Proof.Machine
end

section
/-! SUPPORT. An event whose vector word has DG bit 0 = 1 is refused (60_exceptions.md R162, D22). -/

namespace Sys2Proof.Machine

theorem jumpIndirect_of_chained {loc : Addr} {s : State} (hm : s.mapOn = false) (hl : s.hasWord loc = true)
    (hb : topBit (s.mem.readWord loc) = true) : jumpIndirect loc s = .refused .indirectChain := by
  rw [jumpIndirect, memRead_of hm hl, andThen_next, if_pos hb]

/-- The two locations differ, so the store to the save word leaves the chained vector word as it was. -/
theorem takeEvent_of_chained {save vector : Addr} (h : vector ≠ save) {s : State} (a : Addr) (hm : s.mapOn = false)
    (hs : s.hasWord save = true) (hv : s.hasWord vector = true) (hb : topBit (s.mem.readWord vector) = true) :
    takeEvent save vector a s = .refused .indirectChain := by
  rw [takeEvent, memWrite_of _ hm hs, andThen_next]
  refine jumpIndirect_of_chained (s := s.setMem _) hm hv ?_
  rwa [State.setMem_mem, Memory.readWord_writeWord_of_ne _ _ h]

/-- Instruction trap entry (60_exceptions.md R166) in both modes, since the user map is off by then. -/
theorem raiseInstructionTrap_of_chained {s : State} (a : Addr) (hs : s.hasWord 38 = true) (hv : s.hasWord 39 = true)
    (hb : topBit (s.mem.readWord 39) = true) : raiseInstructionTrap a s = .refused .indirectChain := by
  have hm := disableUserMap_mapOn s
  rw [raiseInstructionTrap]
  rw [disableUserMap_eq] at hm ⊢
  exact takeEvent_of_chained (by decide) a hm hs hv hb

end Sys2Proof.Machine
end

section
/-! PROOF. The statements about TRAP (44_trap.md R151, R152). -/

namespace Sys2Proof.Machine

/-- Settles O46: TRAP is instruction trap entry from its own address. -/
theorem trapEntersHandler : Obligations.TrapEntersHandler := by
  intro s acs acd n hf hs hv hwf
  refine ⟨fun hb => ?_, fun hb => ?_⟩
  · have ht := (execTrap_eq_next (acs := acs) (acd := acd) (number := n)).2 (.inl ⟨hf, hs, hv, hb, rfl⟩)
    refine ⟨_, ht, rfl, fun b => ?_, fun hp => ?_, fun hp => ?_⟩
    · exact Memory.readWord_writeWord hwf 38 b (zext16 s.pc)
    · simp [hp]
    · simp [hp]
  · rw [exec, execTrap, if_pos hf, raiseInstructionTrap_of_chained s.pc hs hv hb]

/-- Settles O47: of what `execTrap` can answer, the case without the feature moves PC alone. -/
theorem trapIsNoOpWithoutTheFeature : Obligations.TrapIsNoOpWithoutTheFeature :=
  fun _ acs acd n hf hm =>
    (execTrap_eq_next (acs := acs) (acd := acd) (number := n)).2 (.inr ⟨hf, hm, rfl⟩)

end Sys2Proof.Machine
end

section
/-! PROOF. The statement about the indirect jump of an event (60_exceptions.md R162). -/

namespace Sys2Proof.Machine

/-- DG bit 0 is the most significant, so as a number it tells which words are 32768 or more. -/
theorem topBit_eq_decide (v : Word) : topBit v = decide (32768 ≤ v.toNat) :=
  BitVec.msb_eq_decide v

/-- Settles O49: of what `jumpIndirect` can answer, DG bit 0 of the vector word decides. -/
theorem jumpGoesThroughTheVectorWord : Obligations.JumpGoesThroughTheVectorWord := by
  intro s loc hm hl
  refine ⟨fun hlt => ?_, fun hge => ?_⟩
  · have hb : topBit (s.mem.readWord loc) = false := by simpa [topBit_eq_decide] using hlt
    rw [BitVec.ofNat_toNat]
    exact jumpIndirect_eq_next.2 ⟨hm, hl, hb, rfl⟩
  · have hb : topBit (s.mem.readWord loc) = true := by simpa [topBit_eq_decide] using hge
    exact jumpIndirect_of_chained hm hl hb

end Sys2Proof.Machine
end

section
/-! SUPPORT. The frame pointer where an instruction does not read it (10_state.md R24; 70_reset_and_hazards.md R193), and
the run of some steps (70_reset_and_hazards.md R198). -/

namespace Sys2Proof.Machine

/-! ### Another frame pointer -/

/-- The state with another frame pointer, written or not. -/
def State.withFp (s : State) (x : Addr) (b : Bool) : State := { s with fp := x, fpWritten := b }

section
variable {s t : State} (x : Addr) (b : Bool)

theorem setDivCarry_withFp (s : State) : setDivCarry (s.withFp x b) = (setDivCarry s).withFp x b := by
  have hp : (s.withFp x b).params = s.params := rfl
  unfold setDivCarry
  rw [hp]
  cases s.params.divCarry with
  | draw => rfl
  | overflowFlag => rfl

theorem divOverflowed_withFp (h : divOverflowed s = .next t) : divOverflowed (s.withFp x b) = .next (t.withFp x b) := by
  have hp : (s.withFp x b).params = s.params := rfl
  unfold divOverflowed at h ⊢
  rw [hp]
  split at h
  · cases h
  · cases h; rfl
  · cases h; rfl

theorem raiseStackFault_withFp {a : Addr} (h : raiseStackFault a s = .next t) :
    raiseStackFault a (s.withFp x b) = .next (t.withFp x b) := by
  obtain ⟨hm, h0, h3, hb, rfl⟩ := raiseStackFault_eq_next.1 h
  exact raiseStackFault_eq_next.2 ⟨hm, h0, h3, hb, rfl⟩

theorem stackCheck_withFp {a : Addr} {crossed : Bool} (h : stackCheck a { st := s, crossed := crossed } = .next t) :
    stackCheck a { st := s.withFp x b, crossed := crossed } = .next (t.withFp x b) := by
  rw [stackCheck_eq_next]
  obtain ⟨hc, rfl⟩ | ⟨hc, hi, h⟩ | ⟨hc, hi, hl, rfl⟩ | ⟨hc, hi, hl, rfl⟩ := stackCheck_eq_next.1 h
  · exact .inl ⟨hc, rfl⟩
  · exact .inr (.inl ⟨hc, hi, raiseStackFault_withFp x b h⟩)
  · exact .inr (.inr (.inl ⟨hc, hi, hl, rfl⟩))
  · exact .inr (.inr (.inr ⟨hc, hi, hl, rfl⟩))

/-- An instruction that neither reads nor writes FP completes in the same way whatever FP holds, and keeps it. -/
theorem exec_withFp {i : Instr} (hsav : i ≠ .sav) (hret : i ≠ .ret) (hmffp : ∀ ac, i ≠ .mffp ac)
    (hmtfp : ∀ ac, i ≠ .mtfp ac) (h : exec i s = .next t) : exec i (s.withFp x b) = .next (t.withFp x b) := by
  cases i with
  | mul =>
    obtain ⟨hf, hm, rfl⟩ := execMul_eq_next.1 h
    exact execMul_eq_next.2 ⟨hf, hm, rfl⟩
  | div =>
    refine execDiv_eq_next.2 ?_
    obtain ⟨hf, hm, ⟨hlt, rfl⟩ | ⟨hle, h⟩⟩ := execDiv_eq_next.1 h
    · exact ⟨hf, hm, .inl ⟨hlt, (setDivCarry_withFp x b _).symm⟩⟩
    · exact ⟨hf, hm, .inr ⟨hle, divOverflowed_withFp x b h⟩⟩
  | mtsp ac =>
    obtain ⟨hf, hm, rfl⟩ := execMtsp_eq_next.1 h
    exact execMtsp_eq_next.2 ⟨hf, hm, rfl⟩
  | mfsp ac =>
    obtain ⟨hf, hm, hs, rfl⟩ := execMfsp_eq_next.1 h
    exact execMfsp_eq_next.2 ⟨hf, hm, hs, rfl⟩
  | mtfp ac => exact absurd rfl (hmtfp ac)
  | mffp ac => exact absurd rfl (hmffp ac)
  | psha ac =>
    obtain ⟨hf, hm, hs, hw, h⟩ := execPsha_eq_next.1 h
    exact execPsha_eq_next.2 ⟨hf, hm, hs, hw, stackCheck_withFp x b h⟩
  | popa ac =>
    obtain ⟨hf, hm, hs, hw, h⟩ := execPopa_eq_next.1 h
    exact execPopa_eq_next.2 ⟨hf, hm, hs, hw, stackCheck_withFp x b h⟩
  | sav => exact absurd rfl hsav
  | ret => exact absurd rfl hret
  | ldb acs acd =>
    obtain ⟨hf, hm, hw, rfl⟩ := execLdb_eq_next.1 h
    exact execLdb_eq_next.2 ⟨hf, hm, hw, rfl⟩
  | stb acs acd =>
    obtain ⟨hf, hm, hw, rfl⟩ := execStb_eq_next.1 h
    exact execStb_eq_next.2 ⟨hf, hm, hw, rfl⟩
  | trap acs acd n =>
    refine (execTrap_eq_next (acs := acs) (acd := acd) (number := n)).2 ?_
    obtain ⟨hf, hs, hv, hb, rfl⟩ | ⟨hf, hm, rfl⟩ := (execTrap_eq_next (acs := acs) (acd := acd) (number := n)).1 h
    · exact .inl ⟨hf, hs, hv, hb, rfl⟩
    · exact .inr ⟨hf, hm, rfl⟩

/-- MTFP answers the same state whatever FP held. -/
theorem execMtfp_withFp {ac : Acc} (h : execMtfp ac s = .next t) : execMtfp ac (s.withFp x b) = .next t := by
  obtain ⟨hf, hm, rfl⟩ := execMtfp_eq_next.1 h
  exact execMtfp_eq_next.2 ⟨hf, hm, rfl⟩

/-! ### The frame pointer and RET -/

theorem popBlock_of_unwritten {a : Addr} (hs : s.spWritten = false) : popBlock a s = .fault .unwrittenSP := by
  rw [popBlock, pop_of_unwritten (w := beginWork s) hs, andThen_fault]

/-- The block popped overwrites FP, and nothing before that reads it. -/
theorem popBlock_withFp (a : Addr) (hm : s.mapOn = false) : popBlock a (s.withFp x b) = popBlock a s := by
  cases hs : s.spWritten with
  | false => rw [popBlock_of_unwritten hs, popBlock_of_unwritten (s := s.withFp x b) hs]
  | true =>
    by_cases habsent : ∃ k, k < 5 ∧ s.hasWord (s.sp - BitVec.ofNat 15 k) = false
    · rw [popBlock_of_absent ⟨hs, hm, habsent⟩, popBlock_of_absent (s := s.withFp x b) ⟨hs, hm, habsent⟩]
    · have hw (k : Nat) (hk : k < 5) : s.hasWord (s.sp - BitVec.ofNat 15 k) = true :=
        Bool.of_not_eq_false fun h => habsent ⟨k, hk, h⟩
      have hwords : s.hasWord s.sp = true ∧ s.hasWord (s.sp - 1) = true ∧ s.hasWord (s.sp - 2) = true ∧
          s.hasWord (s.sp - 3) = true ∧ s.hasWord (s.sp - 4) = true :=
        ⟨by simpa using hw 0 (by decide), hw 1 (by decide), hw 2 (by decide), hw 3 (by decide), hw 4 (by decide)⟩
      rw [popBlock_of hs hm hwords, popBlock_of (s := s.withFp x b) hs hm hwords]
      rfl

/-- RET as the source has it: without `RET_SP_FROM_FP` it pops from SP (42_stack.md R120). -/
theorem execRet_of_retSpFromFp_eq_false (hr : Runs s.params.hasStack s) (hp : s.params.retSpFromFp = false) :
    execRet s = popBlock s.pc s.advance := by
  have hreload : reloadSp s.advance = .next s.advance := reloadSp_eq_next.2 (.inl ⟨hp, rfl⟩)
  rw [execRet, gate_of_runs hr.1 hr.2, hreload, andThen_next]

theorem execRet_withFp (hr : Runs s.params.hasStack s) (hp : s.params.retSpFromFp = false) :
    execRet (s.withFp x b) = execRet s := by
  rw [execRet_of_retSpFromFp_eq_false hr hp, execRet_of_retSpFromFp_eq_false (s := s.withFp x b) hr hp]
  exact popBlock_withFp (s := s.advance) x b s.pc hr.2

/-- A RET that completes leaves FP written (assumption 36). -/
theorem execRet_fpWritten (h : execRet s = .next t) : t.fpWritten = true := by
  obtain ⟨-, -, -, h⟩ := popBlock_eq_next.1 (popBlock_of_execRet h)
  exact (stackCheck_frame Iff.rfl h).fpWritten

theorem execSav_fpWritten (h : execSav s = .next t) : t.fpWritten = true := by
  obtain ⟨-, -, -, -, -, h⟩ := execSav_eq_next.1 h
  exact (stackCheck_frame Iff.rfl h).fpWritten

end

/-! ### Runs -/

theorem runTo_of_mem {stop : List Addr} {s : State} (h : s.pc ∈ stop) (n : Nat) : runTo stop n s = .final s := by
  cases n with
  | zero => exact if_pos h
  | succ n => exact if_pos h

theorem runTo_succ_of_step {stop : List Addr} {s t : State} (h : s.pc ∉ stop) (hst : step s = .next t) (n : Nat) :
    runTo stop (n + 1) s = runTo stop n t := by
  rw [runTo, if_neg h, hst]

theorem pc_mem_of_runTo_final {stop : List Addr} {n : Nat} {s t : State} (h : runTo stop n s = .final t) :
    t.pc ∈ stop := by
  induction n generalizing s with
  | zero =>
    by_cases hpc : s.pc ∈ stop
    · cases (runTo_of_mem hpc 0).symm.trans h
      exact hpc
    · rw [runTo, if_neg hpc] at h
      cases h
  | succ n ih =>
    by_cases hpc : s.pc ∈ stop
    · cases (runTo_of_mem hpc (n + 1)).symm.trans h
      exact hpc
    · rw [runTo, if_neg hpc] at h
      split at h
      · exact ih h
      · cases h
      · cases h

end Sys2Proof.Machine
end

section
/-! PROOF. The statements about hazards and the end of a run (70_reset_and_hazards.md). -/

namespace Sys2Proof.Machine

/-- Settles O60. -/
theorem runEndsAtStop : Obligations.RunEndsAtStop :=
  fun _ n _ => ⟨fun h => runTo_of_mem h n, fun h _ hst => runTo_succ_of_step h hst n, fun _ => pc_mem_of_runTo_final⟩

/-- Settles O27: of the instructions that do not read FP, MTFP overwrites it and the others keep it. -/
theorem framePointerMustBeWritten : Obligations.FramePointerMustBeWritten := by
  intro s hr
  obtain ⟨hf, hm⟩ := hr
  refine ⟨fun hfp => ⟨fun ac => (mffpResult s ac ⟨hf, hm⟩).2 hfp, fun hs => ?_⟩,
    fun hp x b => execRet_withFp x b ⟨hf, hm⟩ hp, fun i t x b hsav hret hmffp h => ?_,
    fun _ => execRet_fpWritten, fun _ => execSav_fpWritten⟩
  · simp [exec, execSav, gate_of_runs hf hm, hs, hfp]
  · by_cases hmtfp : ∃ ac, i = .mtfp ac
    · obtain ⟨ac, rfl⟩ := hmtfp
      exact ⟨t, execMtfp_withFp x b h, rfl⟩
    · exact ⟨t.withFp x b, exec_withFp x b hsav hret hmffp (not_exists.1 hmtfp) h, rfl⟩

end Sys2Proof.Machine
end
